-- ==== Sys2Proof/Config.lean ====
section
/-! DEFINITION. The parameters of the hardware (spec/00_scope.md R5). The spec leaves no other choice to the
implementation, and it leaves no value open after which the machine goes on, so there is no free value here
(spec/93_implementation_defined.md). -/

namespace Sys2Proof.Config

/-- `XLEN` (R5, R11): the width of a general register and of ADD and SUB.
DESIGN CHOICE, unsafe, log entry 1: the spec's default 32 (its decision D1) out of "32 or more". -/
abbrev xlen : Nat := 32

/-- `CELL` (R5): the width of one memory cell. -/
abbrev cell : Nat := 8

/-- `NREGS` (R5, R11): how many general registers there are. -/
abbrev nregs : Nat := 8

/-- `FRAMEBUFFER_START` (R5): the address of the first framebuffer cell. -/
abbrev framebufferStart : Nat := 1024

/-- `FB_W` (R5): the framebuffer's width in pixels. -/
abbrev fbW : Nat := 32

/-- `FB_H` (R5): the framebuffer's height in pixels. -/
abbrev fbH : Nat := 32

/-- `MEM_SIZE` (R5, R30): the number of cells; the valid addresses are 0 to 2047. -/
abbrev memSize : Nat := 2048

/-- `PC_MAX` (R5, R16): the largest value the program counter can hold. -/
abbrev pcMax : Nat := 2048

/-- The length of the longest instruction in bytes (R50, R57). -/
abbrev maxInstrBytes : Nat := 4

end Sys2Proof.Config
end

