-- ==== Sys2Proof/Word.lean ====
section
/-! DEFINITION. The two kinds of value the machine computes with (spec/00_scope.md R5, R6): a cell and a register.
Both are unsigned; no instruction gives any bit the meaning of a sign (spec/41_arithmetic.md R82). -/

namespace Sys2Proof

/-- The value of one memory cell, and of one byte of an instruction (R30, R50). -/
abbrev Byte := BitVec Config.cell

/-- The value of one general register (R11). -/
abbrev Word := BitVec Config.xlen

end Sys2Proof
end

