-- ==== Sys2Proof/Machine/State.lean ====
section
/-! DEFINITION. The state of the machine, the reasons it can stop, and the state after power-on. The architectural
state is memory, registers and program counter (spec/10_state.md R10); beside them stand the driver's control state
(spec/50_execution_drivers.md R130) and the history of the diagnostic stream (R129), which no instruction reads. -/

namespace Sys2Proof.Machine

/-- The kinds of an addressing fault (R152). -/
inductive AddressKind where
  /-- A register index of 8 or more: an instruction's operand byte, or the index of a host Inspect. -/
  | regIndex
  /-- A dispatch at a program counter of 2048 or more. -/
  | pcOutOfRange
  /-- An operand byte of a legal instruction that lies beyond the last cell. -/
  | operandFetch
  /-- A memory address of 2048 or more in a host Load or Inspect. -/
  | memAddress
  deriving DecidableEq, Repr

/-- The two faults (R150). A fault is terminal for the current Run or Step and leaves all state as it was (R156).
Both are safe: the spec names them. -/
inductive Fault where
  /-- `DecodeFault(op)` (R151): raised by the instruction fetch when the opcode byte `op` is 0 or 10 to 254. Safe. -/
  | decode (op : Byte)
  /-- `AddressingFault(kind, value)` (R152): raised by the instruction fetch (`pcOutOfRange`, `operandFetch`), by the
  instructions with a register operand (`regIndex`) and by the host's Load and Inspect (`memAddress`, `regIndex`).
  Safe: where the spec chose the fault itself (log entries 3, 4 and 10) the model stops where the source might go on. -/
  | addressing (kind : AddressKind) (value : Nat)
  deriving DecidableEq, Repr

/-- Reasons to give an instruction no meaning. -/
inductive Refusal where
  /-- Raised by `exec` for an instruction without a meaning: here by none, since all ten have one. Safe. -/
  | notModelled (mnemonic : String)
  deriving DecidableEq, Repr

/-- The two states of the driver control machine (R130). -/
inductive Control where
  /-- No driver call is in progress: the engine accepts a host transaction. -/
  | idle
  /-- A Run is in progress: the engine repeats the dispatch and accepts no host transaction. -/
  | running
  deriving DecidableEq, Repr

/-- The memory array (R20, R30), as the list of its cells that do not hold zero; `Memory.read` says what an unlisted
address holds and `Memory.wf` what the canonical form is (Machine/Ops.lean). -/
abbrev Memory := List Host.Cell

/-- Everything the spec gives the machine. -/
structure State where
  /-- `mem` (R20): 2048 cells of 8 bits. -/
  mem : Memory
  /-- `x[0]` to `x[7]` (R11): no register is hard-wired and no index is special. -/
  x : Vector Word Config.nregs
  /-- `pc` (R14, R16): the address of the next instruction's opcode byte, 0 to 2048. -/
  pc : Nat
  /-- The driver's control state (R130). -/
  control : Control
  /-- The values PRINT has emitted since power-on, the oldest first (R90, R129). -/
  out : List Word
  deriving DecidableEq, Repr

/-- The state after power-on initialisation (R22, R180): every cell, every register and the program counter zero, the
control state Idle, the diagnostic stream empty. The host's Reset transaction is a lesser event: `State.resetCore` in
Machine/Ops.lean. -/
def State.reset : State where
  mem := []
  x := Vector.replicate Config.nregs 0
  pc := 0
  control := .idle
  out := []

end Sys2Proof.Machine
end

