-- ==== Sys2Proof/Machine/Ops.lean ====
section
/-! DEFINITION. The named operations over memory, registers, program counter and diagnostic stream; raising a fault;
the Reset operation. Every instruction is written over these (spec/00_scope.md R7). -/

namespace Sys2Proof.Machine

/-! ### Memory as data -/

/-- What a cell that the list does not name holds: zero, as after power-on (R22, R180). -/
def Memory.unlisted : Byte := 0

/-- The value of the cell at an address. -/
def Memory.read : Memory → Nat → Byte
  | [], _ => Memory.unlisted
  | (b, w) :: m, a => if b = a then w else Memory.read m a

/-- The memory without any entry for an address. -/
def Memory.erase (m : Memory) (a : Nat) : Memory := m.filter fun c => decide (c.1 ≠ a)

/-- The memory with an entry put before the first entry of a higher address. -/
def Memory.insert (a : Nat) (v : Byte) : Memory → Memory
  | [] => [(a, v)]
  | (b, w) :: m => if a < b then (a, v) :: (b, w) :: m else (b, w) :: Memory.insert a v m

/-- The memory with one cell written. Writing what an unlisted cell holds removes the entry, so that equal memories
are equal lists. -/
def Memory.write (m : Memory) (a : Nat) (v : Byte) : Memory :=
  if v = Memory.unlisted then m.erase a else Memory.insert a v (m.erase a)

/-- The canonical form: addresses strictly rising, each of them an address of the array (R30), no entry that holds
what an unlisted address reads as. -/
abbrev Memory.wf (m : Memory) : Prop :=
  m.Pairwise (fun c d => c.1 < d.1) ∧ ∀ c ∈ m, c.1 < Config.memSize ∧ c.2 ≠ Memory.unlisted

/-! ### Widening and narrowing at the memory boundary -/

/-- `zext_XLEN` of a byte (R6, R34): the upper bits are zero, never a sign. -/
def zextByte (b : Byte) : Word := b.setWidth Config.xlen

/-- `v[7:0]` of a register value (R6, R34): its low byte. -/
def lowByte (w : Word) : Byte := w.setWidth Config.cell

/-! ### Raising a fault

Taking an exception on this machine (R7, R156): the current instruction is abandoned, nothing is saved, nothing is
written, no handler is entered, and the fault is the answer. There is no return from a fault (R157). -/

/-- `raise F(info)` (R7): the computation ends with the fault and none of its writes. -/
def raise {α : Type} (f : Fault) : Except Fault α := .error f

/-- The answer of an instruction (R122): the state after it, or the fault it raised. A fault's state is the state
before the instruction (R156), which whoever called still holds. -/
def finish : Except Fault State → Host.Outcome State Fault Refusal
  | .ok t => .next t
  | .error f => .fault f

/-! ### The access primitives -/

/-- `MemRead(a, 1)` (R33). -/
def memRead (a : Nat) (s : State) : Except Fault Byte :=
  if a < Config.memSize then .ok (s.mem.read a) else raise (.addressing .memAddress a)

/-- `MemWrite(a, 1, v)` (R33): exactly one cell changes. -/
def memWrite (a : Nat) (v : Byte) (s : State) : Except Fault State :=
  if a < Config.memSize then .ok { s with mem := s.mem.write a v } else raise (.addressing .memAddress a)

/-- `x[i]` (R7). -/
def State.getX (s : State) (i : Fin Config.nregs) : Word := s.x[i]

/-- `x[i] <- v` (R7): the whole register is replaced; no other register changes. -/
def State.setX (s : State) (i : Fin Config.nregs) (v : Word) : State := { s with x := s.x.set i v }

/-- `pc <- pc + n` (R15): the fixed width of the instruction just executed, with no modulo (R16). -/
def State.advance (s : State) (n : Nat) : State := { s with pc := s.pc + n }

/-- `pc <- t` for an `addr8` target (R53, R98): absolute, 0 to 255. -/
def State.jumpTo (s : State) (addr8 : Byte) : State := { s with pc := addr8.toNat }

/-- `Emit(v)` (R7, R90): the value is appended to the diagnostic stream; nothing else changes. -/
def State.emit (s : State) (v : Word) : State := { s with out := s.out ++ [v] }

/-! ### The framebuffer -/

/-- The framebuffer address of column `xv` and row `yv` (R31, R107), in ordinary integers. -/
def fbAddress (xv yv : Nat) : Nat := Config.framebufferStart + yv * Config.fbW + xv

/-- Set one pixel (R105, R106, R107): the bound is tested on each coordinate before the address is formed, and an
off-screen pixel writes nothing and is no fault. -/
def plot (xv yv : Nat) (color : Byte) (s : State) : Except Fault State :=
  if xv < Config.fbW ∧ yv < Config.fbH then memWrite (fbAddress xv yv) color s else .ok s

/-! ### Reset and the end of a Run -/

/-- `Reset()` (R181): registers and program counter zero; memory, framebuffer included, and the diagnostic stream
untouched (R22). -/
def State.resetCore (s : State) : State := { s with x := Vector.replicate Config.nregs 0, pc := 0 }

/-- The control state becomes Idle (R130): a Run in progress ends. Nothing else changes. -/
def State.endRun (s : State) : State := { s with control := .idle }

/-- What opens a Run (R125, R130): a Reset, and the control state becomes Running. -/
def State.startRun (s : State) : State := { s.resetCore with control := .running }

end Sys2Proof.Machine
end

