-- ==== Sys2Proof/Machine/Operands.lean ====
section
/-! DEFINITION. The operand forms (spec/30_encoding.md R53). There are no addressing modes: an operand is an immediate
byte used as it is, or a register index. A register index is checked with all its eight bits before it is used
(spec/10_state.md R12). -/

namespace Sys2Proof.Machine

/-- The register an index names, or `AddressingFault(RegIndex, i)` for an index of 8 or more (R12): never masked,
wrapped or clamped.
DESIGN CHOICE, safe, log entry 3 (the spec's decision D3): the fault for an instruction's operand byte; for a host
Inspect it is the document's own. -/
def regIndex (i : Nat) : Except Fault (Fin Config.nregs) :=
  if h : i < Config.nregs then .ok ⟨i, h⟩ else raise (.addressing .regIndex i)

/-- A register-index operand byte of an instruction (R53, R56). -/
def regOperand (b : Byte) : Except Fault (Fin Config.nregs) := regIndex b.toNat

end Sys2Proof.Machine
end

