-- ==== Sys2Proof/Machine/Arithmetic.lean ====
section
/-! DEFINITION. ADD and SUB (spec/41_arithmetic.md R80, R81, R82): unsigned, modulo `2^XLEN`, total, no flags. -/

namespace Sys2Proof.Machine

/-- The shape ADD and SUB share: the three indices are checked in memory order (R155), both sources are read before
the write (R123), only `x[rd]` changes. -/
def arith (f : Word → Word → Word) (rd rs1 rs2 : Byte) (s : State) : Host.Outcome State Fault Refusal := finish do
  let d ← regOperand rd
  let a ← regOperand rs1
  let b ← regOperand rs2
  return (s.setX d (f (s.getX a) (s.getX b))).advance 4

/-- `ADD rd,rs1,rs2` (R80): `x[rd] <- (x[rs1] + x[rs2]) mod 2^XLEN`. -/
def execAdd (rd rs1 rs2 : Byte) (s : State) : Host.Outcome State Fault Refusal :=
  arith (fun a b => a + b) rd rs1 rs2 s

/-- `SUB rd,rs1,rs2` (R81): `x[rd] <- (x[rs1] - x[rs2]) mod 2^XLEN`; `rs1` is the minuend. -/
def execSub (rd rs1 rs2 : Byte) (s : State) : Host.Outcome State Fault Refusal :=
  arith (fun a b => a - b) rd rs1 rs2 s

end Sys2Proof.Machine
end

