-- ==== Sys2Proof/Machine/Flags.lean ====
section
/-! DEFINITION. The machine has no flags and no condition codes (spec/10_state.md R17): ADD and SUB record no carry,
borrow, overflow, zero or sign. What stands here is the one condition an instruction tests. -/

namespace Sys2Proof.Machine

/-- JZ's condition (R17, R95): all `XLEN` bits of the register are zero. -/
def isZero (w : Word) : Bool := w == 0

end Sys2Proof.Machine
end

