-- ==== Sys2Proof/Machine/ControlFlow.lean ====
section
/-! DEFINITION. JZ, JMP and HALT (spec/43_control_flow.md R95, R96, R97). -/

namespace Sys2Proof.Machine

/-- `JZ rs,addr8` (R95): the index is checked whether or not the jump is taken. -/
def execJz (rs addr8 : Byte) (s : State) : Host.Outcome State Fault Refusal := finish do
  let r ← regOperand rs
  return if isZero (s.getX r) then s.jumpTo addr8 else s.advance 3

/-- `JMP addr8` (R96): the program counter is replaced, never advanced by the width. -/
def execJmp (addr8 : Byte) (s : State) : Host.Outcome State Fault Refusal := finish do
  return s.jumpTo addr8

/-- `HALT` (R97): no register, no memory cell and not the program counter is written; a Run in progress ends (R97,
R130). With no Run in progress the state does not change at all, as often as HALT is dispatched: an idempotent rest
state, no fault (DESIGN CHOICE, safe, log entry 16, for the label `Halted`, the spec's decision D17). That the answer is `Halted` and not `Ok` is said by `dispatch` in Machine/Driver.lean. -/
def execHalt (s : State) : Host.Outcome State Fault Refusal := finish do
  return s.endRun

end Sys2Proof.Machine
end

