-- ==== Sys2Proof/Machine/DataMovement.lean ====
section
/-! DEFINITION. LOAD and STORE (spec/40_data_movement.md R70, R71). -/

namespace Sys2Proof.Machine

/-- `LOAD rd,imm8` (R70): the whole register is replaced by the zero-extended immediate. -/
def execLoad (rd imm8 : Byte) (s : State) : Host.Outcome State Fault Refusal := finish do
  let d ← regOperand rd
  return (s.setX d (zextByte imm8)).advance 3

/-- `STORE rs,addr8` (R71): the register's low byte to one of the first 256 cells; the address is used as it is. -/
def execStore (rs addr8 : Byte) (s : State) : Host.Outcome State Fault Refusal := finish do
  let r ← regOperand rs
  let t ← memWrite addr8.toNat (lowByte (s.getX r)) s
  return t.advance 3

end Sys2Proof.Machine
end

