-- ==== Sys2Proof/Machine/Diagnostic.lean ====
section
/-! DEFINITION. PRINT (spec/42_diagnostic.md R90). -/

namespace Sys2Proof.Machine

/-- `PRINT rs` (R90): the whole register value is emitted; the program counter advances like that of every
instruction that is no jump (spec/90_conflicts.md C6). -/
def execPrint (rs : Byte) (s : State) : Host.Outcome State Fault Refusal := finish do
  let r ← regOperand rs
  return (s.emit (s.getX r)).advance 2

end Sys2Proof.Machine
end

