-- ==== Sys2Proof/Machine/Framebuffer.lean ====
section
/-! DEFINITION. PIX and PIXR (spec/44_framebuffer.md R105, R106, R107). -/

namespace Sys2Proof.Machine

/-- `PIX x8,y8,color8` (R105): immediate coordinates and colour. -/
def execPix (x8 y8 color8 : Byte) (s : State) : Host.Outcome State Fault Refusal := finish do
  let t ← plot x8.toNat y8.toNat color8 s
  return t.advance 4

/-- `PIXR rx,ry,rc` (R106): the coordinates are whole register values, compared on all `XLEN` bits.
DESIGN CHOICE, unsafe, log entry 6 (the spec's decision D6): the colour is the low byte of its register.
DESIGN CHOICE, safe, log entry 14 (the spec's decision D15): the three indices are checked before the coordinates. -/
def execPixr (rx ry rc : Byte) (s : State) : Host.Outcome State Fault Refusal := finish do
  let i ← regOperand rx
  let j ← regOperand ry
  let k ← regOperand rc
  let t ← plot (s.getX i).toNat (s.getX j).toNat (lowByte (s.getX k)) s
  return t.advance 4

end Sys2Proof.Machine
end

