-- ==== Sys2Proof/Syntax.lean ====
section
/-! DEFINITION. The instructions as data: the opcodes of spec/30_encoding.md R54, the formats of R51, and one
constructor of `Instr` per row of spec/opcode_table.json. An operand is the whole byte that stands in memory
(R52, R53): a register-index byte may be 8 to 255, and then the instruction faults when it is executed (R56). -/

namespace Sys2Proof

/-- The ten opcodes (R54). -/
inductive Op where
  | load | add | sub | store | print | jz | jmp | pix | pixr | halt
  deriving DecidableEq, Repr

/-- The seven formats (R51), by the number and kind of their operand bytes. -/
inductive Format where
  | N | R | A | RI | RA | RRR | III
  deriving DecidableEq, Repr

/-- One instruction, its operands in the order in which they stand in memory (R51, R54). -/
inductive Instr where
  /-- `LOAD rd,imm8` (R70). -/
  | load (rd imm8 : Byte)
  /-- `ADD rd,rs1,rs2` (R80): the destination is the first operand (spec/90_conflicts.md C1). -/
  | add (rd rs1 rs2 : Byte)
  /-- `SUB rd,rs1,rs2` (R81). -/
  | sub (rd rs1 rs2 : Byte)
  /-- `STORE rs,addr8` (R71). -/
  | store (rs addr8 : Byte)
  /-- `PRINT rs` (R90). -/
  | print (rs : Byte)
  /-- `JZ rs,addr8` (R95). -/
  | jz (rs addr8 : Byte)
  /-- `JMP addr8` (R96). -/
  | jmp (addr8 : Byte)
  /-- `PIX x8,y8,color8` (R105). -/
  | pix (x8 y8 color8 : Byte)
  /-- `PIXR rx,ry,rc` (R106). -/
  | pixr (rx ry rc : Byte)
  /-- `HALT` (R97). -/
  | halt
  deriving DecidableEq, Repr

/-- The register-index operands of an instruction, in memory order (R53, R56). -/
def Instr.regOperands : Instr → List Byte
  | .load rd _ => [rd]
  | .add rd rs1 rs2 => [rd, rs1, rs2]
  | .sub rd rs1 rs2 => [rd, rs1, rs2]
  | .store rs _ => [rs]
  | .print rs => [rs]
  | .jz rs _ => [rs]
  | .jmp _ => []
  | .pix _ _ _ => []
  | .pixr rx ry rc => [rx, ry, rc]
  | .halt => []

/-- The register-index operands whose registers the instruction reads (R13, column "registers read"). -/
def Instr.regsRead : Instr → List Byte
  | .load _ _ => []
  | .add _ rs1 rs2 => [rs1, rs2]
  | .sub _ rs1 rs2 => [rs1, rs2]
  | .store rs _ => [rs]
  | .print rs => [rs]
  | .jz rs _ => [rs]
  | .jmp _ => []
  | .pix _ _ _ => []
  | .pixr rx ry rc => [rx, ry, rc]
  | .halt => []

/-- The register-index operand whose register the instruction writes (R13, column "registers written"). -/
def Instr.regWritten : Instr → Option Byte
  | .load rd _ => some rd
  | .add rd _ _ => some rd
  | .sub rd _ _ => some rd
  | .store _ _ => none
  | .print _ => none
  | .jz _ _ => none
  | .jmp _ => none
  | .pix _ _ _ => none
  | .pixr _ _ _ => none
  | .halt => none

end Sys2Proof
end

