-- ==== Sys2Proof/Machine/Dispatch.lean ====
section
/-! DEFINITION. The handler of each instruction (spec/50_execution_drivers.md R122, step 4). -/

namespace Sys2Proof.Machine

def exec (i : Instr) (s : State) : Host.Outcome State Fault Refusal :=
  match i with
  | .load rd imm8 => Sys2Proof.Machine.execLoad rd imm8 s
  | .add rd rs1 rs2 => Sys2Proof.Machine.execAdd rd rs1 rs2 s
  | .sub rd rs1 rs2 => Sys2Proof.Machine.execSub rd rs1 rs2 s
  | .store rs addr8 => Sys2Proof.Machine.execStore rs addr8 s
  | .print rs => Sys2Proof.Machine.execPrint rs s
  | .jz rs addr8 => Sys2Proof.Machine.execJz rs addr8 s
  | .jmp addr8 => Sys2Proof.Machine.execJmp addr8 s
  | .pix x8 y8 color8 => Sys2Proof.Machine.execPix x8 y8 color8 s
  | .pixr rx ry rc => Sys2Proof.Machine.execPixr rx ry rc s
  | .halt => Sys2Proof.Machine.execHalt s

end Sys2Proof.Machine
end

