-- ==== Sys2Proof/WellFormed.lean ====
section
/-! DEFINITION. Which instructions are well formed. The only illegal operand value is a register-index byte of 8 to
255 (spec/30_encoding.md R56); every value of an immediate, address, coordinate or colour byte is legal. -/

namespace Sys2Proof

/-- A register-index byte is valid exactly when it names one of the eight registers (R12). -/
def regValid (b : Byte) : Bool := decide (b.toNat < Config.nregs)

/-- An instruction is well formed when each of its register-index operands is valid (R56). -/
def Instr.wellFormed (i : Instr) : Bool := i.regOperands.all regValid

end Sys2Proof
end

