-- ==== Sys2Proof/Decode.lean ====
section
/-! DEFINITION. The decoder and the encoder (spec/30_encoding.md). Decoding takes the bytes from the opcode byte on
and answers the instruction with the bytes that follow it, or says by name why there is none; it is total on any
list of bytes. -/

namespace Sys2Proof

/-- What decoding answers. -/
inductive Decoded where
  /-- An instruction, and the bytes after it. -/
  | instr (i : Instr) (rest : List Byte)
  /-- There is no opcode byte at all. -/
  | noOpcode
  /-- The first byte is none of the ten opcodes (R55). -/
  | illegalOpcode (op : Byte)
  /-- The opcode is legal and an operand byte is missing (R59). -/
  | missingOperand
  deriving DecidableEq, Repr

/-- The opcode that a byte selects by its whole value (R54); the 246 other values select none (R55). -/
def Op.ofByte (b : Byte) : Option Op :=
  match b.toNat with
  | 1 => some .load
  | 2 => some .add
  | 3 => some .sub
  | 4 => some .store
  | 5 => some .print
  | 6 => some .jz
  | 7 => some .jmp
  | 8 => some .pix
  | 9 => some .pixr
  | 255 => some .halt
  | _ => none

/-- The format of each opcode (R51, R54). -/
def Op.format : Op → Format
  | .load => .RI
  | .add => .RRR
  | .sub => .RRR
  | .store => .RA
  | .print => .R
  | .jz => .RA
  | .jmp => .A
  | .pix => .III
  | .pixr => .RRR
  | .halt => .N

/-- The length of each format in bytes, the opcode byte counted (R51). -/
def Format.length : Format → Nat
  | .N => 1
  | .R => 2
  | .A => 2
  | .RI => 3
  | .RA => 3
  | .RRR => 4
  | .III => 4

/-- Which operand bytes of a format are register indices, as offsets from the opcode byte (R51, R53). -/
def Format.regOffsets : Format → List Nat
  | .N => []
  | .R => [1]
  | .A => []
  | .RI => [1]
  | .RA => [1]
  | .RRR => [1, 2, 3]
  | .III => []

/-- `Length` (R57): the instruction's length in bytes as a function of the opcode byte alone; none for an illegal
opcode, which has no length. -/
def lengthOf (op : Byte) : Option Nat := (Op.ofByte op).map fun o => o.format.length

/-- One operand byte. -/
def operand1 (k : Byte → Instr) : List Byte → Decoded
  | b1 :: rest => .instr (k b1) rest
  | [] => .missingOperand

/-- Two operand bytes, the first listed at `pc+1`. -/
def operand2 (k : Byte → Byte → Instr) : List Byte → Decoded
  | b1 :: b2 :: rest => .instr (k b1 b2) rest
  | _ => .missingOperand

/-- Three operand bytes, the first listed at `pc+1`. -/
def operand3 (k : Byte → Byte → Byte → Instr) : List Byte → Decoded
  | b1 :: b2 :: b3 :: rest => .instr (k b1 b2 b3) rest
  | _ => .missingOperand

/-- The operands of each opcode, in the order in which R54 lists them.
DESIGN CHOICE, unsafe, log entry 12 (the spec's decision D12): the first listed operand stands at `pc+1`. -/
def decodeOperands : Op → List Byte → Decoded
  | .load => operand2 .load
  | .add => operand3 .add
  | .sub => operand3 .sub
  | .store => operand2 .store
  | .print => operand1 .print
  | .jz => operand2 .jz
  | .jmp => operand1 .jmp
  | .pix => operand3 .pix
  | .pixr => operand3 .pixr
  | .halt => .instr .halt

/-- Decode the instruction that begins at the head of a list of bytes (R50 to R57). An illegal opcode is rejected
without a look at the bytes after it (R55). -/
def decode : List Byte → Decoded
  | [] => .noOpcode
  | op :: rest =>
    match Op.ofByte op with
    | none => .illegalOpcode op
    | some o => decodeOperands o rest

/-- The opcode of an instruction (R54). -/
def Instr.op : Instr → Op
  | .load _ _ => .load
  | .add _ _ _ => .add
  | .sub _ _ _ => .sub
  | .store _ _ => .store
  | .print _ => .print
  | .jz _ _ => .jz
  | .jmp _ => .jmp
  | .pix _ _ _ => .pix
  | .pixr _ _ _ => .pixr
  | .halt => .halt

/-- The length of an instruction in bytes (R57): fixed by its opcode alone. -/
def Instr.length (i : Instr) : Nat := i.op.format.length

/-- The opcode byte of each opcode (R52's patterns). -/
def Op.toByte : Op → Byte
  | .load => 0b00000001
  | .add => 0b00000010
  | .sub => 0b00000011
  | .store => 0b00000100
  | .print => 0b00000101
  | .jz => 0b00000110
  | .jmp => 0b00000111
  | .pix => 0b00001000
  | .pixr => 0b00001001
  | .halt => 0b11111111

/-- The operand bytes of an instruction in memory order (R52). -/
def Instr.operands : Instr → List Byte
  | .load rd imm8 => [rd, imm8]
  | .add rd rs1 rs2 => [rd, rs1, rs2]
  | .sub rd rs1 rs2 => [rd, rs1, rs2]
  | .store rs addr8 => [rs, addr8]
  | .print rs => [rs]
  | .jz rs addr8 => [rs, addr8]
  | .jmp addr8 => [addr8]
  | .pix x8 y8 color8 => [x8, y8, color8]
  | .pixr rx ry rc => [rx, ry, rc]
  | .halt => []

/-- The bytes of an instruction in memory order, the opcode byte first (R50, R52). -/
def encode (i : Instr) : List Byte := i.op.toByte :: i.operands

/-- The bytes in memory of an instruction given as one number with bit 0 the least significant bit of its first
byte: `maxInstrBytes` bytes, the first at the lowest address, every bit from `nbits` up being zero. -/
def tableBytes (nbits w : Nat) : List Byte :=
  (List.range Config.maxInstrBytes).map fun k => BitVec.ofNat Config.cell ((w % 2 ^ nbits) / 2 ^ (8 * k))

/-- The instruction the decoder reads from an instruction given as one number (see `tableBytes`). -/
def decodeTableWord (nbits w : Nat) : Option Instr :=
  match decode (tableBytes nbits w) with
  | .instr i _ => some i
  | .noOpcode => none
  | .illegalOpcode _ => none
  | .missingOperand => none

end Sys2Proof
end

