-- ==== Sys2Proof/Machine/Fetch.lean ====
section
/-! DEFINITION. The fetch of an instruction (spec/50_execution_drivers.md R122, steps 1 to 3; spec/30_encoding.md
R59). Fetch addresses never wrap (R59), every fetch sees the memory as it is now (spec/20_memory.md R43), and a read
has no side effect (R37). -/

namespace Sys2Proof.Machine

/-- The cells an instruction at the program counter can occupy: those from `pc` on, at most four, none beyond the end
of memory. DEDUCED, safe, log entry 20: that cells beyond the instruction's own are read makes no difference, since a
read has no side effect (R37) and decoding does not look at them. -/
def fetchWindow (s : State) : List Byte :=
  (List.range (min Config.maxInstrBytes (Config.memSize - s.pc))).map fun k => s.mem.read (s.pc + k)

/-- The instruction at the program counter, or the fault its fetch raises, in the order of R122 and R155: the program
counter's range, then the opcode, then the range of the operand bytes.
DESIGN CHOICE, safe, log entry 4 (the spec's decision D4): the two range faults.
DESIGN CHOICE, unsafe, log entry 5 (the spec's decision D5): the order, which decides the fault reported. -/
def fetchInstr (s : State) : Except Fault Instr :=
  match decode (fetchWindow s) with
  | .instr i _ => .ok i
  | .noOpcode => raise (.addressing .pcOutOfRange s.pc)
  | .illegalOpcode op => raise (.decode op)
  | .missingOperand => raise (.addressing .operandFetch Config.memSize)

/-- Write a list of bytes to the cells from an address on, leaving out those beyond the end of memory: what a sequence
of host Loads at consecutive addresses does (R127). -/
def loadBytes (a : Nat) : List Byte → State → State
  | [], s => s
  | v :: vs, s =>
    match memWrite a v s with
    | .ok t => loadBytes (a + 1) vs t
    | .error _ => s

end Sys2Proof.Machine
end

