-- ==== Sys2Proof/Machine/Step.lean ====
section
/-! DEFINITION. One step: the `Dispatch` of spec/50_execution_drivers.md R122. With the control state Idle it is what
the host's Step transaction does (R124); with the control state Running it is one turn of Run's loop (R125). -/

namespace Sys2Proof.Machine

/-- Fetch, decode and execute exactly one instruction at the current `pc` (R122). A fault leaves all state as it was
(R156); the state the host then finds is said by `dispatch` and `runTick` in Machine/Driver.lean. -/
def step (s : State) : Host.Outcome State Fault Refusal :=
  match fetchInstr s with
  | .ok i => exec i s
  | .error f => .fault f

/-- `s` with an instruction, given as one number (see `tableBytes`), loaded at the program counter. It stands for the
host's Load transactions (R127, R183; log entry 18); nothing but memory changes. -/
def State.withFetchWord (s : State) (nbits w : Nat) : State := loadBytes s.pc (tableBytes nbits w) s

end Sys2Proof.Machine
end

