-- ==== Sys2Proof/Machine/Driver.lean ====
section
/-! DEFINITION. The execution drivers, the host's transactions, the control state machine and the program counter's
lifecycle (spec/50_execution_drivers.md; spec/60_exceptions.md R153). A transaction is atomic; the host acts only in
Idle and the engine acts on its own only in Running (R120, R136). -/

namespace Sys2Proof.Machine

/-- The result of a Step or a Run (R153). -/
inductive Result where
  /-- One instruction other than HALT was executed. -/
  | ok
  /-- The instruction at `pc` is HALT. -/
  | halted
  /-- `Fault(F, info)`. -/
  | fault (f : Fault)
  /-- The model's own third outcome of a step, which no instruction has. DESIGN CHOICE, safe, log entry 21. -/
  | refused (r : Refusal)
  deriving DecidableEq, Repr

/-- The nominal code of a result (R153; DESIGN CHOICE, safe, log entry 8, the spec's decision D8); no program can observe it. The model's own outcome has none. -/
def Result.code : Result → Option Nat
  | .ok => some 0
  | .halted => some 1
  | .fault (.decode _) => some 2
  | .fault (.addressing _ _) => some 3
  | .refused _ => none

/-- The transactions of the host (R121) other than power-on, which is `State.reset`. Addresses and indices are natural
numbers (R128). -/
inductive Transaction where
  | load (a : Nat) (v : Byte)
  | reset
  | step
  | run
  | inspectMem (a : Nat)
  | inspectReg (i : Nat)
  | inspectPc
  deriving DecidableEq, Repr

/-- What the host is told (R121). -/
inductive Response where
  /-- The transaction has no response. -/
  | nothing
  /-- A Run has not ended: there is no response yet, and none ever if it never ends (R133). -/
  | pending
  /-- The result of a Step, or of a Run that has ended. -/
  | result (r : Result)
  /-- The value of the memory cell inspected. -/
  | cell (v : Byte)
  /-- The value of the register inspected. -/
  | register (v : Word)
  /-- The program counter. -/
  | programCounter (a : Nat)
  /-- The fault of a Load or an Inspect. -/
  | fault (f : Fault)
  deriving DecidableEq, Repr

/-- The instruction at `pc` is HALT. -/
def State.atHalt (s : State) : Bool :=
  match fetchInstr s with
  | .ok i => decide (i = .halt)
  | .error _ => false

/-- `Dispatch()` with its result and the state after it (R122, R153): after a fault the state is the one before
(R123, R156). -/
def dispatch (s : State) : State × Result :=
  match Sys2Proof.Machine.step s with
  | .next t => (t, if s.atHalt then .halted else .ok)
  | .fault f => (s, .fault f)
  | .refused r => (s, .refused r)

/-- One turn of Run's loop (R125, R130): the loop goes on while the dispatch returns `Ok`; otherwise the result is
reported and the control state becomes Idle.
DESIGN CHOICE, safe, log entry 13 (the spec's decision D14): HALT is dispatched like any instruction. -/
def runTick (s : State) : State × Response :=
  match dispatch s with
  | (t, .ok) => (t, .pending)
  | (t, .halted) => (t.endRun, .result .halted)
  | (t, .fault f) => (t.endRun, .result (.fault f))
  | (t, .refused r) => (t.endRun, .result (.refused r))

/-- What a transaction does when it is accepted (R121, R124 to R128). -/
def serve : Transaction → State → State × Response
  | .load a v, s =>
    match memWrite a v s with
    | .ok t => (t, .nothing)
    | .error f => (s, .fault f)
  | .reset, s => (s.resetCore, .nothing)
  | .step, s => ((dispatch s).1, .result (dispatch s).2)
  | .run, s => (s.startRun, .pending)
  | .inspectMem a, s =>
    match memRead a s with
    | .ok v => (s, .cell v)
    | .error f => (s, .fault f)
  | .inspectReg i, s =>
    match Sys2Proof.Machine.regIndex i with
    | .ok r => (s, .register (s.getX r))
    | .error f => (s, .fault f)
  | .inspectPc, s => (s, .programCounter s.pc)

/-- The host's move (R130, R136): every transaction is accepted in Idle and none in Running. -/
def transact (tr : Transaction) (s : State) : Option (State × Response) :=
  match s.control with
  | .idle => some (serve tr s)
  | .running => none

/-- The engine's own move (R130): a turn of Run's loop in Running, none in Idle. -/
def engineMove (s : State) : Option (State × Response) :=
  match s.control with
  | .idle => none
  | .running => some (runTick s)

/-- At most `n` turns of Run's loop, for the statements. To run out of turns is "not finished" and nothing else (R133): the machine has no
step limit. -/
def runFor : Nat → State → State × Response
  | 0, s => (s, .pending)
  | n + 1, s =>
    match runTick s with
    | (t, .pending) => runFor n t
    | (t, r) => (t, r)

/-- At most `n` Steps, until one returns other than `Ok` (R132). -/
def stepMany : Nat → State → State × Result
  | 0, s => (s, .ok)
  | n + 1, s =>
    match dispatch s with
    | (t, .ok) => stepMany n t
    | (t, r) => (t, r)

/-- The classes of the program counter's lifecycle (R131). -/
inductive Lifecycle where
  | ready | halted | faulted
  deriving DecidableEq, Repr

/-- The class of a state, by the conditions of R131's table.
DESIGN CHOICE, unsafe, log entry 7 (the spec's decision D7): it is a classification of `(pc, mem, x)` and is stored
nowhere. -/
def State.lifecycle (s : State) : Lifecycle :=
  if s.pc < Config.memSize then
    match Op.ofByte (s.mem.read s.pc) with
    | none => .faulted
    | some .halt => .halted
    | some o =>
      if s.pc + o.format.length ≤ Config.memSize
          ∧ ∀ k ∈ o.format.regOffsets, (s.mem.read (s.pc + k)).toNat < Config.nregs then .ready
      else .faulted
  else .faulted

end Sys2Proof.Machine
end

