-- ==== Sys2Proof/Safety.lean ====
section
/-! DEFINITION. What counts as a safe state, and the terms in which the statements speak of two states. -/

namespace Sys2Proof.Machine

/-- The invariant of the machine: memory is in its canonical form with every listed cell in the array
(spec/20_memory.md R30), and the program counter is 0 to 2048 (spec/10_state.md R16). -/
abbrev State.Inv (s : State) : Prop := s.mem.wf ∧ s.pc ≤ Config.pcMax

/-- The bytes of an instruction stand at the program counter, the last of them in the array (R50, R59). -/
abbrev InstrAtPc (i : Instr) (s : State) : Prop :=
  s.pc + (encode i).length ≤ Config.memSize ∧
    (List.range (encode i).length).map (fun k => s.mem.read (s.pc + k)) = encode i

/-- Every register of `t` holds what it holds in `s`. -/
def SameRegs (s t : State) : Prop := ∀ j, t.getX j = s.getX j

/-- Every register of `t` but the one an operand byte names holds what it holds in `s`. -/
def SameRegsBut (rd : Byte) (s t : State) : Prop := ∀ j : Fin Config.nregs, j.val ≠ rd.toNat → t.getX j = s.getX j

/-- Every byte of memory reads in `t` as it does in `s`. -/
def SameMem (s t : State) : Prop := ∀ a, t.mem.read a = s.mem.read a

/-- Every byte of memory but the one at an address reads in `t` as it does in `s`. -/
def SameMemBut (a : Nat) (s t : State) : Prop := ∀ b, b ≠ a → t.mem.read b = s.mem.read b

/-- The diagnostic stream and the driver's control state are in `t` what they are in `s`. -/
def SameDriver (s t : State) : Prop := t.out = s.out ∧ t.control = s.control

end Sys2Proof.Machine
end

