-- ==== Sys2Proof/Certificates/Slice0/Obligations.lean ====
section
/-! DEFINITION. The statements for the provers. Each docstring names the rule or the section of the spec it comes
from; where a statement rests on a decision the spec marks as its own, it says which, with the log entry. -/

open Sys2Proof Sys2Proof.Machine

/-! ### Encoding -/

/-- R50, R52, R54: decoding gives an instruction and a rest exactly for the bytes of that instruction followed by that
rest. Rests on the order of operand bytes (the spec's decision D12, log entry 12). -/
def Obligations.DecodeInvertsEncode : Prop :=
  ∀ (bytes : List Byte) (i : Instr) (rest : List Byte), decode bytes = .instr i rest ↔ bytes = encode i ++ rest

/-- spec/95_test_vectors.md Part 5: one word of each opcode, as bytes. Rests on decision D12 (log entry 12). -/
def Obligations.SpecWordsDecode : Prop :=
  decode [0x01, 0x07, 0xFF] = .instr (.load 7 255) [] ∧
  decode [0x02, 0x02, 0x00, 0x01] = .instr (.add 2 0 1) [] ∧
  decode [0x03, 0x00, 0x00, 0x01] = .instr (.sub 0 0 1) [] ∧
  decode [0x04, 0x00, 0x20] = .instr (.store 0 0x20) [] ∧
  decode [0x05, 0x02] = .instr (.print 2) [] ∧
  decode [0x06, 0x03, 0x1D] = .instr (.jz 3 29) [] ∧
  decode [0x07, 0x0C] = .instr (.jmp 12) [] ∧
  decode [0x08, 0x02, 0x03, 0x07] = .instr (.pix 2 3 7) [] ∧
  decode [0x09, 0x00, 0x01, 0x02] = .instr (.pixr 0 1 2) [] ∧
  decode [0xFF] = .instr .halt []

/-- R57: the length is a function of the first byte alone, with the values of the table, and decoding takes exactly
that many bytes. -/
def Obligations.LengthIsFixedByTheOpcode : Prop :=
  (∀ op : Byte, lengthOf op =
    if op.toNat = 255 then some 1
    else if op.toNat = 5 ∨ op.toNat = 7 then some 2
    else if op.toNat = 1 ∨ op.toNat = 4 ∨ op.toNat = 6 then some 3
    else if op.toNat = 2 ∨ op.toNat = 3 ∨ op.toNat = 8 ∨ op.toNat = 9 then some 4
    else none) ∧
  (∀ (op : Byte) (bytes rest : List Byte) (i : Instr), decode (op :: bytes) = .instr i rest →
    ∃ n, lengthOf op = some n ∧ (op :: bytes).length = n + rest.length) ∧
  (∀ (op : Byte) (bytes : List Byte), lengthOf op = none → decode (op :: bytes) = .illegalOpcode op) ∧
  (∀ (op : Byte) (bytes : List Byte) (n : Nat), lengthOf op = some n → (op :: bytes).length < n →
    decode (op :: bytes) = .missingOperand)

/-- R151: `DecodeFault(op)` is raised exactly when the opcode byte at the program counter is 0 or 10 to 254, it records
that byte, it is raised by Step and Run only, and it changes nothing. -/
def Obligations.DecodeFaultExactlyOnIllegalOpcodes : Prop :=
  (∀ (s : State) (op : Byte), (dispatch s).2 = .fault (.decode op) ↔
    s.pc < 2048 ∧ op = s.mem.read s.pc ∧ (op.toNat = 0 ∨ 10 ≤ op.toNat ∧ op.toNat ≤ 254)) ∧
  (∀ (s : State) (op : Byte), (dispatch s).2 = .fault (.decode op) → (dispatch s).1 = s) ∧
  (∀ (tr : Transaction) (s t : State) (op : Byte), transact tr s ≠ some (t, .fault (.decode op))) ∧
  (∀ (tr : Transaction) (s t : State) (op : Byte),
    transact tr s = some (t, .result (.fault (.decode op))) → tr = .step ∧ t = s) ∧
  (∀ (s t : State) (op : Byte), engineMove s = some (t, .result (.fault (.decode op))) →
    t.mem = s.mem ∧ t.x = s.x ∧ t.pc = s.pc ∧ t.out = s.out)

/-! ### Memory as data -/

/-- R31, R107: the map from on-screen pixels to addresses is a bijection onto the cells 1024 to 2047, and no on-screen
pixel falls outside them. -/
def Obligations.FramebufferAddressIsABijection : Prop :=
  (∀ x y : Nat, x < 32 → y < 32 → 1024 ≤ fbAddress x y ∧ fbAddress x y < 2048) ∧
  (∀ x y x' y' : Nat, x < 32 → y < 32 → x' < 32 → y' < 32 → fbAddress x y = fbAddress x' y' → x = x' ∧ y = y') ∧
  (∀ a : Nat, 1024 ≤ a → a < 2048 → ∃ x y : Nat, x < 32 ∧ y < 32 ∧ fbAddress x y = a)

/-- The model's own representation (log entry 17) of the one array of R30: two memories in canonical form that read the
same at every address of the array are the same data. -/
def Obligations.CanonicalMemoriesAreDeterminedByTheirReads : Prop :=
  ∀ m n : Memory, m.wf → n.wf → (∀ a, a < 2048 → m.read a = n.read a) → m = n

/-! ### Reset -/

/-- R22: the value of every piece of state after power-on and after the Reset transaction, and the entry point. -/
def Obligations.ResetValues : Prop :=
  ((∀ j, State.reset.getX j = 0) ∧ State.reset.pc = 0 ∧ (∀ a, State.reset.mem.read a = 0) ∧
    State.reset.control = .idle ∧ State.reset.out = []) ∧
  (∀ s : State, s.control = .idle → ∃ t, transact .reset s = some (t, .nothing) ∧
    (∀ j, t.getX j = 0) ∧ t.pc = 0 ∧ SameMem s t ∧ t.control = .idle ∧ t.out = s.out ∧
    (fetchWindow t).head? = some (s.mem.read 0)) ∧
  (∀ s : State, s.control = .idle → ∃ t r, transact .run s = some (t, r) ∧
    (∀ j, t.getX j = 0) ∧ t.pc = 0 ∧ SameMem s t ∧ t.control = .running ∧ t.out = s.out ∧
    (fetchWindow t).head? = some (s.mem.read 0)) ∧
  (∀ s : State, s.control = .running → transact .reset s = none) ∧
  (fetchWindow State.reset).head? = some (State.reset.mem.read 0)

/-- R181: the Reset operation zeroes all registers and sets the program counter to 0, leaving all memory untouched; it
is what the Reset transaction does, and the first action of every Run. -/
def Obligations.ResetOperationLeavesMemoryUntouched : Prop :=
  (∀ s : State, (∀ j, s.resetCore.getX j = 0) ∧ s.resetCore.pc = 0 ∧ s.resetCore.mem = s.mem) ∧
  (∀ s : State, s.control = .idle → transact .reset s = some (s.resetCore, .nothing)) ∧
  (∀ s : State, s.control = .idle → ∃ t r, transact .run s = some (t, r) ∧
    t.mem = s.resetCore.mem ∧ t.x = s.resetCore.x ∧ t.pc = s.resetCore.pc ∧ t.out = s.resetCore.out)

/-- R182: Reset is idempotent, commutes with Load, and leaves exactly the power-on state but for memory and the
diagnostic stream. Rests on the answer to a Load out of range (decision D10, log entry 10) for its last case. -/
def Obligations.ResetIsIdempotentAndCommutesWithLoad : Prop :=
  (∀ s : State, s.resetCore.resetCore = s.resetCore) ∧
  (∀ (s : State) (a : Nat) (v : Byte), (serve (.load a v) s.resetCore).1 = (serve (.load a v) s).1.resetCore ∧
    (serve (.load a v) s.resetCore).2 = (serve (.load a v) s).2) ∧
  (∀ (s : State) (a : Nat) (v : Byte), (serve (.load a v) s.resetCore).1.startRun = (serve (.load a v) s).1.startRun) ∧
  (∀ s : State, s.control = .idle → s.resetCore = { State.reset with mem := s.mem, out := s.out })

/-! ### The ten instructions: each completes with its effect and changes nothing else -/

/-- spec/40_data_movement.md LOAD: the whole register becomes the zero-extended immediate. -/
def Obligations.LoadReplacesTheWholeRegister : Prop :=
  ∀ (rd imm8 : Byte) (s : State) (hd : rd.toNat < 8), ∃ t, exec (.load rd imm8) s = .next t ∧
    (t.getX ⟨rd.toNat, hd⟩).toNat = imm8.toNat ∧ t.pc = s.pc + 3 ∧
    SameRegsBut rd s t ∧ SameMem s t ∧ SameDriver s t

/-- spec/41_arithmetic.md ADD: the sum modulo `2^XLEN`, both sources read before the write. `XLEN` is 32 by decision D1
(log entry 1). -/
def Obligations.AddIsModuloTheRegisterWidth : Prop :=
  ∀ (rd rs1 rs2 : Byte) (s : State) (hd : rd.toNat < 8) (h1 : rs1.toNat < 8) (h2 : rs2.toNat < 8),
    ∃ t, exec (.add rd rs1 rs2) s = .next t ∧
    (t.getX ⟨rd.toNat, hd⟩).toNat =
      ((s.getX ⟨rs1.toNat, h1⟩).toNat + (s.getX ⟨rs2.toNat, h2⟩).toNat) % 2 ^ Config.xlen ∧
    t.pc = s.pc + 4 ∧ SameRegsBut rd s t ∧ SameMem s t ∧ SameDriver s t

/-- spec/41_arithmetic.md SUB: the difference where the minuend is not the smaller, else the difference plus `2^XLEN`;
not saturated. `XLEN` is 32 by decision D1 (log entry 1). -/
def Obligations.SubWrapsOnUnderflow : Prop :=
  ∀ (rd rs1 rs2 : Byte) (s : State) (hd : rd.toNat < 8) (h1 : rs1.toNat < 8) (h2 : rs2.toNat < 8),
    ∃ t, exec (.sub rd rs1 rs2) s = .next t ∧
    (t.getX ⟨rd.toNat, hd⟩).toNat =
      (if (s.getX ⟨rs2.toNat, h2⟩).toNat ≤ (s.getX ⟨rs1.toNat, h1⟩).toNat then
        (s.getX ⟨rs1.toNat, h1⟩).toNat - (s.getX ⟨rs2.toNat, h2⟩).toNat
      else (s.getX ⟨rs1.toNat, h1⟩).toNat + 2 ^ Config.xlen - (s.getX ⟨rs2.toNat, h2⟩).toNat) ∧
    t.pc = s.pc + 4 ∧ SameRegsBut rd s t ∧ SameMem s t ∧ SameDriver s t

/-- spec/40_data_movement.md STORE: the register's low byte to the cell the address byte names, and no other cell. -/
def Obligations.StoreWritesTheLowByteToOneCell : Prop :=
  ∀ (rs addr8 : Byte) (s : State) (hs : rs.toNat < 8), ∃ t, exec (.store rs addr8) s = .next t ∧
    (t.mem.read addr8.toNat).toNat = (s.getX ⟨rs.toNat, hs⟩).toNat % 256 ∧ t.pc = s.pc + 3 ∧
    SameMemBut addr8.toNat s t ∧ SameRegs s t ∧ SameDriver s t

/-- spec/42_diagnostic.md PRINT: the whole register value is appended to the diagnostic stream (decision D11, log entry
11), and the program counter advances. -/
def Obligations.PrintEmitsTheWholeRegister : Prop :=
  ∀ (rs : Byte) (s : State) (hs : rs.toNat < 8), ∃ t, exec (.print rs) s = .next t ∧
    t.out = s.out ++ [s.getX ⟨rs.toNat, hs⟩] ∧ t.pc = s.pc + 2 ∧
    SameRegs s t ∧ SameMem s t ∧ t.control = s.control

/-- spec/43_control_flow.md JZ: the jump is taken exactly when the whole register is zero. -/
def Obligations.JzTestsTheWholeRegister : Prop :=
  ∀ (rs addr8 : Byte) (s : State) (hs : rs.toNat < 8), ∃ t, exec (.jz rs addr8) s = .next t ∧
    ((s.getX ⟨rs.toNat, hs⟩).toNat = 0 → t.pc = addr8.toNat) ∧
    ((s.getX ⟨rs.toNat, hs⟩).toNat ≠ 0 → t.pc = s.pc + 3) ∧
    SameRegs s t ∧ SameMem s t ∧ SameDriver s t

/-- spec/43_control_flow.md JMP: the program counter is replaced by the absolute target. -/
def Obligations.JmpReplacesTheProgramCounter : Prop :=
  ∀ (addr8 : Byte) (s : State), ∃ t, exec (.jmp addr8) s = .next t ∧
    t.pc = addr8.toNat ∧ SameRegs s t ∧ SameMem s t ∧ SameDriver s t

/-- spec/44_framebuffer.md PIX: an on-screen pixel sets exactly its cell to the colour, an off-screen one changes no
cell at all. -/
def Obligations.PixSetsExactlyOneOnScreenCell : Prop :=
  ∀ (x8 y8 color8 : Byte) (s : State), ∃ t, exec (.pix x8 y8 color8) s = .next t ∧
    (x8.toNat < 32 ∧ y8.toNat < 32 → t.mem.read (fbAddress x8.toNat y8.toNat) = color8 ∧
      SameMemBut (fbAddress x8.toNat y8.toNat) s t) ∧
    (32 ≤ x8.toNat ∨ 32 ≤ y8.toNat → SameMem s t) ∧
    t.pc = s.pc + 4 ∧ SameRegs s t ∧ SameDriver s t

/-- spec/44_framebuffer.md PIXR: as PIX with whole register values as coordinates; the colour is the low byte of its
register (decision D6, log entry 6). -/
def Obligations.PixrComparesWholeRegisters : Prop :=
  ∀ (rx ry rc : Byte) (s : State) (hx : rx.toNat < 8) (hy : ry.toNat < 8) (hc : rc.toNat < 8),
    ∃ t, exec (.pixr rx ry rc) s = .next t ∧
    ((s.getX ⟨rx.toNat, hx⟩).toNat < 32 ∧ (s.getX ⟨ry.toNat, hy⟩).toNat < 32 →
      (t.mem.read (fbAddress (s.getX ⟨rx.toNat, hx⟩).toNat (s.getX ⟨ry.toNat, hy⟩).toNat)).toNat =
        (s.getX ⟨rc.toNat, hc⟩).toNat % 256 ∧
      SameMemBut (fbAddress (s.getX ⟨rx.toNat, hx⟩).toNat (s.getX ⟨ry.toNat, hy⟩).toNat) s t) ∧
    (32 ≤ (s.getX ⟨rx.toNat, hx⟩).toNat ∨ 32 ≤ (s.getX ⟨ry.toNat, hy⟩).toNat → SameMem s t) ∧
    t.pc = s.pc + 4 ∧ SameRegs s t ∧ SameDriver s t

/-- spec/43_control_flow.md HALT: no register, no memory cell and not the program counter is written; a Run in progress
ends, and with none in progress nothing changes at all (log entry 16). -/
def Obligations.HaltWritesNothing : Prop :=
  ∀ s : State, ∃ t, exec .halt s = .next t ∧ t.pc = s.pc ∧ SameRegs s t ∧ SameMem s t ∧ t.out = s.out ∧
    t.control = .idle ∧ (s.control = .idle → t = s)

/-! ### When an instruction completes and when it faults -/

/-- R56, R150, R159: in every state an instruction completes exactly when each of its register-index operands is less
than 8. The fault of the others is decision D3 (log entry 3). -/
def Obligations.InstructionsCompleteExactlyWhenWellFormed : Prop :=
  ∀ (i : Instr) (s : State), (∃ t, exec i s = .next t) ↔ ∀ b ∈ i.regOperands, b.toNat < 8

/-- R12, R56, R155: the first register-index operand of 8 or more, in memory order, is the one reported. Decisions D3,
D5 and D15 (log entries 3, 5 and 14). -/
def Obligations.FirstBadRegisterIndexIsReported : Prop :=
  ∀ (i : Instr) (s : State) (b : Byte), i.regOperands.find? (fun c => decide (8 ≤ c.toNat)) = some b →
    exec i s = .fault (.addressing .regIndex b.toNat)

/-- R122: when the bytes at the program counter are those of an instruction, a step is that instruction's execution; and
a step answers a next state in no other way. -/
def Obligations.StepExecutesTheInstructionAtThePc : Prop :=
  (∀ (s : State) (i : Instr), InstrAtPc i s → step s = exec i s) ∧
  (∀ (s t : State), step s = .next t → ∃ i, InstrAtPc i s ∧ exec i s = .next t)

/-- R59, R122: a program counter beyond the array, and an operand byte beyond it, are faults that change nothing; fetch
never wraps. Decisions D4 and D5 (log entries 4 and 5). -/
def Obligations.FetchBeyondTheArrayFaults : Prop :=
  (∀ s : State, 2048 ≤ s.pc → dispatch s = (s, .fault (.addressing .pcOutOfRange s.pc))) ∧
  (∀ (s : State) (n : Nat), s.pc < 2048 → lengthOf (s.mem.read s.pc) = some n → 2048 < s.pc + n →
    dispatch s = (s, .fault (.addressing .operandFetch 2048)))

/-- R152: with the program counter in its range, the faults a step can raise, each with its cause and its value; an
instruction never raises the fault of a memory address (R33). Decisions D3 and D4 (log entries 3 and 4). -/
def Obligations.StepFaultsAreThoseListed : Prop :=
  ∀ (s : State) (f : Fault), s.pc ≤ 2048 → step s = .fault f →
    (f = .decode (s.mem.read s.pc) ∧ s.pc < 2048 ∧ lengthOf (s.mem.read s.pc) = none) ∨
    (f = .addressing .pcOutOfRange 2048 ∧ s.pc = 2048) ∨
    (f = .addressing .operandFetch 2048 ∧ 2045 ≤ s.pc ∧ s.pc < 2048) ∨
    (∃ k v : Nat, f = .addressing .regIndex v ∧ 1 ≤ k ∧ k ≤ 3 ∧ s.pc + k < 2048 ∧
      v = (s.mem.read (s.pc + k)).toNat ∧ 8 ≤ v ∧ v ≤ 255)

/-- R159, R160: every instruction may execute at any time; no step is refused. -/
def Obligations.NoStepIsRefused : Prop :=
  ∀ (s : State) (r : Refusal), step s ≠ .refused r

/-- R156: a fault inside a dispatch saves nothing and changes nothing; Step returns it; Run leaves its loop, returns it,
and the control state becomes Idle; every instruction before it has completed. -/
def Obligations.FaultsArePrecise : Prop :=
  (∀ (s : State) (f : Fault), step s = .fault f → dispatch s = (s, .fault f) ∧
    (s.control = .idle → transact .step s = some (s, .result (.fault f))) ∧
    (s.control = .running → engineMove s = some ({ s with control := .idle }, .result (.fault f)))) ∧
  (∀ (n : Nat) (s t : State) (f : Fault), stepMany n s = (t, .fault f) →
    ∃ k, k < n ∧ stepMany k s = (t, .ok) ∧ step t = .fault f)

/-! ### Invariants -/

/-- R22: the invariant holds after power-on. -/
def Obligations.PowerOnMeetsTheInvariant : Prop := State.reset.Inv

/-- R16, R30: every step keeps the canonical form of memory, every listed cell in the array, and the program counter in
0 to 2048. The range of the program counter is decision D2 (log entry 2), the form log entry 17. -/
def Obligations.StepKeepsTheInvariant : Prop :=
  ∀ s t : State, s.Inv → step s = .next t → t.Inv

/-- R24, R45, R130: every transaction of the host and every turn of Run's loop keeps the invariant. -/
def Obligations.HostAndRunMovesKeepTheInvariant : Prop :=
  (∀ (tr : Transaction) (s t : State) (r : Response), s.Inv → transact tr s = some (t, r) → t.Inv) ∧
  (∀ (s t : State) (r : Response), s.Inv → engineMove s = some (t, r) → t.Inv)

/-! ### Promises of the whole machine -/

/-- R46: the complete list of what changes memory. -/
def Obligations.OnlyTheListedWritersChangeMemory : Prop :=
  (∀ a, State.reset.mem.read a = 0) ∧
  (∀ (s t : State) (a : Nat), step s = .next t → t.mem.read a ≠ s.mem.read a →
    (∃ rs addr8, InstrAtPc (.store rs addr8) s ∧ a = addr8.toNat) ∨
    (∃ x8 y8 color8, InstrAtPc (.pix x8 y8 color8) s ∧ x8.toNat < 32 ∧ y8.toNat < 32 ∧
      a = fbAddress x8.toNat y8.toNat) ∨
    (∃ (rx ry rc : Byte) (hx : rx.toNat < 8) (hy : ry.toNat < 8), InstrAtPc (.pixr rx ry rc) s ∧
      (s.getX ⟨rx.toNat, hx⟩).toNat < 32 ∧ (s.getX ⟨ry.toNat, hy⟩).toNat < 32 ∧
      a = fbAddress (s.getX ⟨rx.toNat, hx⟩).toNat (s.getX ⟨ry.toNat, hy⟩).toNat)) ∧
  (∀ (s : State) (f : Fault), (dispatch s).2 = .fault f → (dispatch s).1.mem = s.mem) ∧
  (∀ (s t : State), step s = .next t → (dispatch s).1 = t) ∧
  (∀ (tr : Transaction) (s t : State) (r : Response) (a : Nat), transact tr s = some (t, r) →
    t.mem.read a ≠ s.mem.read a → (∃ v, tr = .load a v) ∨ (tr = .step ∧ t = (dispatch s).1)) ∧
  (∀ (s t : State) (r : Response), engineMove s = some (t, r) → t.mem = (dispatch s).1.mem)

/-- R32: the cells 256 to 1023 are changed by no instruction, the framebuffer by PIX and PIXR alone, and the first 256
cells by STORE alone. -/
def Obligations.InstructionsReachOnlyTheirRegion : Prop :=
  ∀ (s t : State) (i : Instr) (a : Nat), InstrAtPc i s → step s = .next t → t.mem.read a ≠ s.mem.read a →
    (a < 256 ∧ i.op = .store) ∨ (1024 ≤ a ∧ a < 2048 ∧ (i.op = .pix ∨ i.op = .pixr))

/-- R13, R24: the complete list of what writes a register. -/
def Obligations.OnlyTheListedWritersChangeRegisters : Prop :=
  (∀ (s t : State) (j : Fin Config.nregs), step s = .next t → t.getX j ≠ s.getX j →
    ∃ i rd, InstrAtPc i s ∧ (i.op = .load ∨ i.op = .add ∨ i.op = .sub) ∧ i.regWritten = some rd ∧ j.val = rd.toNat) ∧
  (∀ (s : State) (f : Fault), (dispatch s).2 = .fault f → (dispatch s).1.x = s.x) ∧
  (∀ (s t : State), step s = .next t → (dispatch s).1 = t) ∧
  (∀ (tr : Transaction) (s t : State) (r : Response) (j : Fin Config.nregs), transact tr s = some (t, r) →
    t.getX j ≠ s.getX j → ((tr = .reset ∨ tr = .run) ∧ t.getX j = 0) ∨ (tr = .step ∧ t = (dispatch s).1)) ∧
  (∀ (s t : State) (r : Response), engineMove s = some (t, r) → t.x = (dispatch s).1.x)

/-- R15: the complete list of how the program counter moves. -/
def Obligations.ProgramCounterMovesOnlyAsListed : Prop :=
  (∀ (s t : State) (i : Instr), InstrAtPc i s → step s = .next t →
    (i.op = .load ∨ i.op = .store → t.pc = s.pc + 3) ∧
    (i.op = .add ∨ i.op = .sub ∨ i.op = .pix ∨ i.op = .pixr → t.pc = s.pc + 4) ∧
    (i.op = .print → t.pc = s.pc + 2) ∧
    (∀ (rs addr8 : Byte) (h : rs.toNat < 8), i = .jz rs addr8 →
      t.pc = if (s.getX ⟨rs.toNat, h⟩).toNat = 0 then addr8.toNat else s.pc + 3) ∧
    (∀ addr8 : Byte, i = .jmp addr8 → t.pc = addr8.toNat) ∧
    (i = .halt → t.pc = s.pc)) ∧
  (∀ (s : State) (f : Fault), (dispatch s).2 = .fault f → (dispatch s).1.pc = s.pc) ∧
  (∀ (s t : State), step s = .next t → (dispatch s).1 = t) ∧
  State.reset.pc = 0 ∧
  (∀ (tr : Transaction) (s t : State) (r : Response), transact tr s = some (t, r) →
    t.pc = s.pc ∨ ((tr = .reset ∨ tr = .run) ∧ t.pc = 0) ∨ (tr = .step ∧ t = (dispatch s).1)) ∧
  (∀ (tr : Transaction) (s t : State) (r : Response), transact tr s = some (t, r) →
    tr = .reset ∨ tr = .run → t.pc = 0) ∧
  (∀ (s t : State) (r : Response), engineMove s = some (t, r) → t.pc = (dispatch s).1.pc)

/-- R90, R129: a value reaches the diagnostic stream only by PRINT, at its end, and no value ever leaves it. Decision
D11 (log entry 11): nothing else is emitted. -/
def Obligations.OnlyPrintEmits : Prop :=
  (∀ s t : State, step s = .next t → t.out = s.out ∨
    ∃ (rs : Byte) (h : rs.toNat < 8), InstrAtPc (.print rs) s ∧ t.out = s.out ++ [s.getX ⟨rs.toNat, h⟩]) ∧
  (∀ (tr : Transaction) (s t : State) (r : Response), tr ≠ .step → transact tr s = some (t, r) → t.out = s.out) ∧
  (∀ (s : State) (f : Fault), (dispatch s).2 = .fault f → (dispatch s).1.out = s.out)

/-- R13, column "registers read": what a register holds that an instruction does not read makes no difference to what
the instruction does. -/
def Obligations.UnreadRegistersMakeNoDifference : Prop :=
  ∀ (i : Instr) (s : State) (j : Fin Config.nregs) (v : Word), (∀ b ∈ i.regsRead, b.toNat ≠ j.val) →
    (∀ t, exec i s = .next t → ∃ u, exec i (s.setX j v) = .next u ∧ u.pc = t.pc ∧ u.mem = t.mem ∧
      u.out = t.out ∧ u.control = t.control ∧ (∀ k, k ≠ j → u.getX k = t.getX k) ∧
      (∀ rd, i.regWritten = some rd → rd.toNat = j.val → u.getX j = t.getX j)) ∧
    (∀ f, exec i s = .fault f → exec i (s.setX j v) = .fault f)

/-- R32, third consequence, and R43: memory is read only as instruction bytes. Two states that agree on all but
memory, and on the cells an instruction at the program counter can occupy, take the same step, and a cell that was
equal stays equal. -/
def Obligations.MemoryIsReadOnlyAsInstructionBytes : Prop :=
  ∀ s s' : State, s'.pc = s.pc → s'.x = s.x → s'.out = s.out → s'.control = s.control →
    (∀ k, k < 4 → s.pc + k < 2048 → s'.mem.read (s.pc + k) = s.mem.read (s.pc + k)) →
    (∀ f, step s = .fault f → step s' = .fault f) ∧
    (∀ t, step s = .next t → ∃ t', step s' = .next t' ∧ t'.pc = t.pc ∧ t'.x = t.x ∧ t'.out = t.out ∧
      t'.control = t.control ∧ ∀ a, s'.mem.read a = s.mem.read a → t'.mem.read a = t.mem.read a)

/-- R129, R130, R164: neither the diagnostic stream nor the control state has any effect on what a step does to memory,
registers and program counter, on the fault it raises, or on the values it emits. -/
def Obligations.StreamAndControlStateAreUnobserved : Prop :=
  ∀ (s : State) (o : List Word) (c : Control),
    (∀ f, step s = .fault f → step { s with out := o, control := c } = .fault f) ∧
    (∀ t, step s = .next t → ∃ t', step { s with out := o, control := c } = .next t' ∧
      t'.mem = t.mem ∧ t'.x = t.x ∧ t'.pc = t.pc ∧
      (∃ es, t.out = s.out ++ es ∧ t'.out = o ++ es) ∧
      ((t.control = s.control ∧ t'.control = c) ∨ (t.control = .idle ∧ t'.control = .idle)))

/-- R43: a byte that STORE writes is what any later fetch of its address gives, as an opcode or as an operand, at once
and with no fence. -/
def Obligations.StoredBytesAreWhatIsFetched : Prop :=
  ∀ (rs addr8 : Byte) (s : State) (hs : rs.toNat < 8), ∃ t, exec (.store rs addr8) s = .next t ∧
    ∀ p k : Nat, k < 4 → p + k = addr8.toNat →
      (fetchWindow { t with pc := p })[k]? = some (BitVec.ofNat 8 (s.getX ⟨rs.toNat, hs⟩).toNat)

/-- R82: `ADD d,a,b` followed by `SUB d,d,b` leaves in `d` what `a` held, across any wrap, for distinct registers. -/
def Obligations.SubUndoesAdd : Prop :=
  ∀ (d a b : Byte) (s : State) (hd : d.toNat < 8) (ha : a.toNat < 8) (_ : b.toNat < 8), d ≠ a → d ≠ b → a ≠ b →
    ∃ t u, exec (.add d a b) s = .next t ∧ exec (.sub d d b) t = .next u ∧
      u.getX ⟨d.toNat, hd⟩ = s.getX ⟨a.toNat, ha⟩ ∧ u.pc = s.pc + 8

/-! ### The drivers -/

/-- R97, R124: at a HALT a Step reports `Halted` and changes nothing, as often as it is repeated; a Run ends there and
reports `Halted`; and only a Reset, a Run or a Load at the program counter leaves the condition. Decision D17 (log
entry 16) for the label of the result. -/
def Obligations.HaltIsARestState : Prop :=
  (∀ s : State, s.pc < 2048 → s.mem.read s.pc = 0xFF → s.control = .idle →
    transact .step s = some (s, .result .halted) ∧
    (∀ (tr : Transaction) (t : State) (r : Response), transact tr s = some (t, r) →
      tr = .reset ∨ tr = .run ∨ (∃ v, tr = .load s.pc v) ∨ (t.pc = s.pc ∧ t.mem.read t.pc = 0xFF))) ∧
  (∀ s : State, s.pc < 2048 → s.mem.read s.pc = 0xFF → s.control = .running →
    engineMove s = some ({ s with control := .idle }, .result .halted)) ∧
  (∀ (s : State), (dispatch s).2 = .halted → s.pc < 2048 ∧ s.mem.read s.pc = 0xFF)

/-- R131: the class of a state says what the next dispatch answers. The classes are not stored (decision D7, log entry
7). -/
def Obligations.LifecyclePredictsTheDispatch : Prop :=
  ∀ s : State,
    (s.lifecycle = .ready ↔ (dispatch s).2 = .ok) ∧
    (s.lifecycle = .halted ↔ (dispatch s).2 = .halted) ∧
    (s.lifecycle = .faulted ↔ ∃ f, (dispatch s).2 = .fault f)

/-- R131, R157: no sequence of Steps leaves the classes Halted and Faulted, and each Step there changes nothing.
Decision D7 (log entry 7). -/
def Obligations.StepsNeverLeaveHaltedOrFaulted : Prop :=
  ∀ (s : State) (n : Nat), s.control = .idle → s.lifecycle ≠ .ready → (fun u => (dispatch u).1)^[n] s = s

/-- R132: a Run is a Reset followed by Steps repeated until one returns other than `Ok`: the same memory, registers,
program counter, diagnostic stream and result. -/
def Obligations.RunIsResetThenSteps : Prop :=
  ∀ (n : Nat) (s : State), s.control = .idle →
    (runFor n s.startRun).1.mem = (stepMany n s.resetCore).1.mem ∧
    (runFor n s.startRun).1.x = (stepMany n s.resetCore).1.x ∧
    (runFor n s.startRun).1.pc = (stepMany n s.resetCore).1.pc ∧
    (runFor n s.startRun).1.out = (stepMany n s.resetCore).1.out ∧
    (runFor n s.startRun).2 =
      (if (stepMany n s.resetCore).2 = .ok then .pending else .result (stepMany n s.resetCore).2) ∧
    (runFor n s.startRun).1.control = (if (stepMany n s.resetCore).2 = .ok then .running else .idle)

/-- R134: the end of a Run. The control state is Idle, and a further Step answers the result of the Run again and
changes nothing. A Run that ends with `Halted` stands on a HALT byte; one that ends otherwise ends with a fault and
stands on the instruction that could not be executed. Decisions D9 (log entry 9), D14 (log entry 13) and D17 (log entry
16). -/
def Obligations.EndedRunsStandOnAHaltOrAFault : Prop :=
  ∀ (n : Nat) (s t : State) (r : Result), runFor n s = (t, .result r) →
    t.control = .idle ∧ dispatch t = (t, r) ∧
    ((r = .halted ∧ t.pc < 2048 ∧ t.mem.read t.pc = 0xFF) ∨ (∃ f, r = .fault f ∧ step t = .fault f))

/-- R133: a Run whose dispatch answers `Ok` and leaves the state as it was never ends, however many turns it is
allowed: the machine has no step limit and no watchdog, and an infinite loop need not change state. -/
def Obligations.AnUnchangingLoopNeverEndsARun : Prop :=
  ∀ (n : Nat) (s : State), dispatch s = (s, .ok) → runFor n s = (s, .pending)

/-- R127, R128: Load writes one cell, Inspect changes nothing and tells the value, and an address or index out of range
is an addressing fault that changes nothing. Decision D10 (log entry 10) for the memory addresses. -/
def Obligations.LoadAndInspectServeTheHost : Prop :=
  ∀ s : State, s.control = .idle →
    (∀ (a : Nat) (v : Byte), a < 2048 → ∃ t, transact (.load a v) s = some (t, .nothing) ∧ t.mem.read a = v ∧
      SameMemBut a s t ∧ SameRegs s t ∧ t.pc = s.pc ∧ SameDriver s t) ∧
    (∀ (a : Nat) (v : Byte), 2048 ≤ a → transact (.load a v) s = some (s, .fault (.addressing .memAddress a))) ∧
    (∀ a, a < 2048 → transact (.inspectMem a) s = some (s, .cell (s.mem.read a))) ∧
    (∀ a, 2048 ≤ a → transact (.inspectMem a) s = some (s, .fault (.addressing .memAddress a))) ∧
    (∀ (i : Nat) (h : i < 8), transact (.inspectReg i) s = some (s, .register (s.getX ⟨i, h⟩))) ∧
    (∀ i, 8 ≤ i → transact (.inspectReg i) s = some (s, .fault (.addressing .regIndex i))) ∧
    transact .inspectPc s = some (s, .programCounter s.pc)

/-- R121, R130, R136: the control state machine. Every transaction is accepted in Idle and none in Running; only Run
leads to Running; Run's loop goes on while the dispatch returns `Ok`, and otherwise reports and becomes Idle. Decision
D9 (log entry 9). -/
def Obligations.ControlMachineMovesAsTabled : Prop :=
  (∀ (s : State) (tr : Transaction), s.control = .running → transact tr s = none) ∧
  (∀ (s : State) (tr : Transaction), s.control = .idle →
    ∃ t r, transact tr s = some (t, r) ∧ (t.control = .running ↔ tr = .run)) ∧
  (∀ s : State, s.control = .idle → engineMove s = none) ∧
  (∀ s : State, s.control = .running → ∃ t r, engineMove s = some (t, r) ∧
    ((dispatch s).2 = .ok → r = .pending ∧ t = (dispatch s).1 ∧ t.control = .running) ∧
    ((dispatch s).2 ≠ .ok → r = .result (dispatch s).2 ∧ t.control = .idle))
end

