-- ==== Sys2Proof/Laws/Config.lean ====
section
/-! SUPPORT. The numbers behind the parameters, for arithmetic. -/

namespace Sys2Proof.Config

@[simp] theorem two_pow_xlen : 2 ^ xlen = 4294967296 := rfl

@[simp] theorem two_pow_cell : 2 ^ cell = 256 := rfl

/-- R5: `MEM_SIZE` is `FRAMEBUFFER_START + FRAMEBUFFER_SIZE`, and the framebuffer has `FB_W * FB_H` cells. -/
theorem memSize_eq : memSize = framebufferStart + fbW * fbH := rfl

theorem memSize_val : memSize = 2048 := rfl

theorem nregs_val : nregs = 8 := rfl

end Sys2Proof.Config
end

