-- ==== Sys2Proof/Laws/Decode.lean ====
section
/-! SUPPORT. What the opcode map and the operand readers answer. -/

namespace Sys2Proof

@[simp] theorem Op.ofByte_toByte (o : Op) : Op.ofByte o.toByte = some o := by cases o <;> rfl

/-- The opcode map has one byte for each opcode (R54). -/
theorem Op.toByte_of_ofByte {b : Byte} {o : Op} (h : Op.ofByte b = some o) : b = o.toByte := by
  revert b o
  decide

/-- The illegal opcode bytes are 0 and 10 to 254 (R55). -/
theorem Op.ofByte_eq_none {b : Byte} : Op.ofByte b = none ↔ b.toNat = 0 ∨ 10 ≤ b.toNat ∧ b.toNat ≤ 254 := by
  revert b
  decide

theorem operand1_eq_instr {k : Byte → Instr} {bs rest : List Byte} {i : Instr} :
    operand1 k bs = .instr i rest ↔ ∃ b1, bs = b1 :: rest ∧ i = k b1 := by
  rcases bs with _ | ⟨b1, r⟩ <;> simp [operand1, eq_comm, and_comm]

theorem operand2_eq_instr {k : Byte → Byte → Instr} {bs rest : List Byte} {i : Instr} :
    operand2 k bs = .instr i rest ↔ ∃ b1 b2, bs = b1 :: b2 :: rest ∧ i = k b1 b2 := by
  rcases bs with _ | ⟨b1, _ | ⟨b2, r⟩⟩ <;> simp [operand2, eq_comm, and_comm]

theorem operand3_eq_instr {k : Byte → Byte → Byte → Instr} {bs rest : List Byte} {i : Instr} :
    operand3 k bs = .instr i rest ↔ ∃ b1 b2 b3, bs = b1 :: b2 :: b3 :: rest ∧ i = k b1 b2 b3 := by
  rcases bs with _ | ⟨b1, _ | ⟨b2, _ | ⟨b3, r⟩⟩⟩ <;> simp [operand3, eq_comm, and_comm]

theorem decode_cons {b : Byte} {o : Op} (h : Op.ofByte b = some o) (bs : List Byte) :
    decode (b :: bs) = decodeOperands o bs := by
  simp [decode, h]

theorem decode_illegal {b : Byte} (h : Op.ofByte b = none) (bs : List Byte) :
    decode (b :: bs) = .illegalOpcode b := by
  simp [decode, h]

end Sys2Proof
end

