-- ==== Sys2Proof/Laws/State.lean ====
section
/-! SUPPORT. What each state update does to each field, and what a register read gives after each update. -/

namespace Sys2Proof.Machine

@[simp] theorem State.setX_mem (s : State) (i : Fin Config.nregs) (v : Word) : (s.setX i v).mem = s.mem := rfl
@[simp] theorem State.setX_x (s : State) (i : Fin Config.nregs) (v : Word) : (s.setX i v).x = s.x.set i v := rfl
@[simp] theorem State.setX_pc (s : State) (i : Fin Config.nregs) (v : Word) : (s.setX i v).pc = s.pc := rfl
@[simp] theorem State.setX_control (s : State) (i : Fin Config.nregs) (v : Word) : (s.setX i v).control = s.control := rfl
@[simp] theorem State.setX_out (s : State) (i : Fin Config.nregs) (v : Word) : (s.setX i v).out = s.out := rfl

@[simp] theorem State.advance_mem (s : State) (n : Nat) : (s.advance n).mem = s.mem := rfl
@[simp] theorem State.advance_x (s : State) (n : Nat) : (s.advance n).x = s.x := rfl
@[simp] theorem State.advance_pc (s : State) (n : Nat) : (s.advance n).pc = s.pc + n := rfl
@[simp] theorem State.advance_control (s : State) (n : Nat) : (s.advance n).control = s.control := rfl
@[simp] theorem State.advance_out (s : State) (n : Nat) : (s.advance n).out = s.out := rfl

@[simp] theorem State.jumpTo_mem (s : State) (a : Byte) : (s.jumpTo a).mem = s.mem := rfl
@[simp] theorem State.jumpTo_x (s : State) (a : Byte) : (s.jumpTo a).x = s.x := rfl
@[simp] theorem State.jumpTo_pc (s : State) (a : Byte) : (s.jumpTo a).pc = a.toNat := rfl
@[simp] theorem State.jumpTo_control (s : State) (a : Byte) : (s.jumpTo a).control = s.control := rfl
@[simp] theorem State.jumpTo_out (s : State) (a : Byte) : (s.jumpTo a).out = s.out := rfl

@[simp] theorem State.emit_mem (s : State) (v : Word) : (s.emit v).mem = s.mem := rfl
@[simp] theorem State.emit_x (s : State) (v : Word) : (s.emit v).x = s.x := rfl
@[simp] theorem State.emit_pc (s : State) (v : Word) : (s.emit v).pc = s.pc := rfl
@[simp] theorem State.emit_control (s : State) (v : Word) : (s.emit v).control = s.control := rfl
@[simp] theorem State.emit_out (s : State) (v : Word) : (s.emit v).out = s.out ++ [v] := rfl

@[simp] theorem State.resetCore_mem (s : State) : s.resetCore.mem = s.mem := rfl
@[simp] theorem State.resetCore_x (s : State) : s.resetCore.x = Vector.replicate Config.nregs 0 := rfl
@[simp] theorem State.resetCore_pc (s : State) : s.resetCore.pc = 0 := rfl
@[simp] theorem State.resetCore_control (s : State) : s.resetCore.control = s.control := rfl
@[simp] theorem State.resetCore_out (s : State) : s.resetCore.out = s.out := rfl

@[simp] theorem State.endRun_mem (s : State) : s.endRun.mem = s.mem := rfl
@[simp] theorem State.endRun_x (s : State) : s.endRun.x = s.x := rfl
@[simp] theorem State.endRun_pc (s : State) : s.endRun.pc = s.pc := rfl
@[simp] theorem State.endRun_control (s : State) : s.endRun.control = .idle := rfl
@[simp] theorem State.endRun_out (s : State) : s.endRun.out = s.out := rfl

@[simp] theorem State.startRun_mem (s : State) : s.startRun.mem = s.mem := rfl
@[simp] theorem State.startRun_x (s : State) : s.startRun.x = Vector.replicate Config.nregs 0 := rfl
@[simp] theorem State.startRun_pc (s : State) : s.startRun.pc = 0 := rfl
@[simp] theorem State.startRun_control (s : State) : s.startRun.control = .running := rfl
@[simp] theorem State.startRun_out (s : State) : s.startRun.out = s.out := rfl

/-! ### Register reads -/

@[simp] theorem State.getX_mk (m : Memory) (x : Vector Word Config.nregs) (p : Nat) (c : Control) (o : List Word)
    (i : Fin Config.nregs) : (State.mk m x p c o).getX i = x[i] := rfl

theorem State.getX_eq (s : State) (i : Fin Config.nregs) : s.getX i = s.x[i] := rfl

theorem State.getX_congr {s t : State} (h : t.x = s.x) (i : Fin Config.nregs) : t.getX i = s.getX i := by
  simp [State.getX, h]

theorem State.getX_setX (s : State) (i j : Fin Config.nregs) (v : Word) :
    (s.setX i v).getX j = if j = i then v else s.getX j := by
  simp only [State.getX, State.setX, Fin.getElem_fin, Vector.getElem_set]
  by_cases h : j = i
  · simp [h]
  · rw [if_neg h, if_neg]
    exact fun e => h (Fin.ext e.symm)

@[simp] theorem State.getX_setX_same (s : State) (i : Fin Config.nregs) (v : Word) : (s.setX i v).getX i = v := by
  simp [State.getX_setX]

theorem State.getX_setX_ne (s : State) {i j : Fin Config.nregs} (h : j ≠ i) (v : Word) :
    (s.setX i v).getX j = s.getX j := by
  simp [State.getX_setX, h]

@[simp] theorem State.getX_advance (s : State) (n : Nat) (i : Fin Config.nregs) : (s.advance n).getX i = s.getX i := rfl

@[simp] theorem State.getX_jumpTo (s : State) (a : Byte) (i : Fin Config.nregs) : (s.jumpTo a).getX i = s.getX i := rfl

@[simp] theorem State.getX_emit (s : State) (v : Word) (i : Fin Config.nregs) : (s.emit v).getX i = s.getX i := rfl

@[simp] theorem State.getX_endRun (s : State) (i : Fin Config.nregs) : s.endRun.getX i = s.getX i := rfl

@[simp] theorem State.getX_resetCore (s : State) (i : Fin Config.nregs) : s.resetCore.getX i = 0 := by
  simp [State.getX]

/-- With no Run in progress, ending a Run changes nothing. -/
theorem State.endRun_of_idle {s : State} (h : s.control = .idle) : s.endRun = s := by
  cases s
  simp_all [State.endRun]

end Sys2Proof.Machine
end

