-- ==== Sys2Proof/Laws/Ops.lean ====
section
/-! SUPPORT. One lemma per shared operation that says everything it can answer. -/

namespace Sys2Proof.Machine

@[simp] theorem finish_ok (t : State) : finish (.ok t) = .next t := rfl

@[simp] theorem finish_error (f : Fault) : finish (.error f) = .fault f := rfl

/-- `finish` answers a next state exactly when no fault was raised. -/
theorem finish_eq_next {r : Except Fault State} {t : State} : finish r = .next t ↔ r = .ok t := by
  cases r <;> simp [finish]

theorem finish_eq_fault {r : Except Fault State} {f : Fault} : finish r = .fault f ↔ r = .error f := by
  cases r <;> simp [finish]

theorem finish_ne_refused (r : Except Fault State) (q : Refusal) : finish r ≠ .refused q := by
  cases r <;> simp [finish]

/-- A computation that goes on after a first one succeeds exactly when both do. -/
theorem bind_eq_ok {α β : Type} {r : Except Fault α} {k : α → Except Fault β} {b : β} :
    (r >>= k) = .ok b ↔ ∃ a, r = .ok a ∧ k a = .ok b := by
  cases r <;> simp [bind, Except.bind]

/-- A computation that goes on after a first one raises what the first raises, or else what the second does. -/
theorem bind_eq_error {α β : Type} {r : Except Fault α} {k : α → Except Fault β} {f : Fault} :
    (r >>= k) = .error f ↔ r = .error f ∨ ∃ a, r = .ok a ∧ k a = .error f := by
  cases r <;> simp [bind, Except.bind]

@[simp] theorem ok_bind {α β : Type} (a : α) (k : α → Except Fault β) : (Except.ok a >>= k) = k a := rfl

@[simp] theorem error_bind {α β : Type} (f : Fault) (k : α → Except Fault β) :
    ((Except.error f : Except Fault α) >>= k) = .error f := rfl

@[simp] theorem pure_eq_ok {α : Type} (a : α) : (pure a : Except Fault α) = .ok a := rfl

@[simp] theorem raise_eq {α : Type} (f : Fault) : (raise f : Except Fault α) = .error f := rfl

/-! ### Register indices (R12) -/

theorem regIndex_of_lt {i : Nat} (h : i < Config.nregs) : regIndex i = .ok ⟨i, h⟩ := dif_pos h

theorem regIndex_of_ge {i : Nat} (h : Config.nregs ≤ i) : regIndex i = .error (.addressing .regIndex i) :=
  dif_neg (Nat.not_lt.2 h)

theorem regOperand_of_lt {b : Byte} (h : b.toNat < Config.nregs) : regOperand b = .ok ⟨b.toNat, h⟩ := regIndex_of_lt h

theorem regOperand_of_ge {b : Byte} (h : Config.nregs ≤ b.toNat) :
    regOperand b = .error (.addressing .regIndex b.toNat) := regIndex_of_ge h

/-- An operand byte names a register exactly when it is less than 8, and then the register of that number. -/
theorem regOperand_eq_ok {b : Byte} {r : Fin Config.nregs} : regOperand b = .ok r ↔ r.val = b.toNat := by
  by_cases h : b.toNat < Config.nregs
  · rw [regOperand_of_lt h, Except.ok.injEq, Fin.ext_iff, eq_comm]
  · rw [regOperand_of_ge (Nat.not_lt.1 h)]
    have := r.isLt
    constructor
    · intro e
      cases e
    · omega

theorem regOperand_eq_error {b : Byte} {f : Fault} :
    regOperand b = .error f ↔ Config.nregs ≤ b.toNat ∧ f = .addressing .regIndex b.toNat := by
  by_cases h : b.toNat < Config.nregs
  · rw [regOperand_of_lt h]
    constructor
    · intro e
      cases e
    · omega
  · rw [regOperand_of_ge (Nat.not_lt.1 h), Except.error.injEq, eq_comm]
    exact ⟨fun e => ⟨Nat.not_lt.1 h, e⟩, fun e => e.2⟩

/-! ### Memory access (R33) -/

theorem memRead_of_lt {a : Nat} (h : a < Config.memSize) (s : State) : memRead a s = .ok (s.mem.read a) := if_pos h

theorem memRead_of_ge {a : Nat} (h : Config.memSize ≤ a) (s : State) :
    memRead a s = .error (.addressing .memAddress a) := if_neg (Nat.not_lt.2 h)

theorem memWrite_of_lt {a : Nat} (h : a < Config.memSize) (v : Byte) (s : State) :
    memWrite a v s = .ok { s with mem := s.mem.write a v } := if_pos h

theorem memWrite_of_ge {a : Nat} (h : Config.memSize ≤ a) (v : Byte) (s : State) :
    memWrite a v s = .error (.addressing .memAddress a) := if_neg (Nat.not_lt.2 h)

theorem memWrite_eq_ok {a : Nat} {v : Byte} {s t : State} :
    memWrite a v s = .ok t ↔ a < Config.memSize ∧ t = { s with mem := s.mem.write a v } := by
  by_cases h : a < Config.memSize
  · simp [memWrite_of_lt h, h, eq_comm]
  · simp [memWrite_of_ge (Nat.not_lt.1 h), h]

/-- A STORE address is in range by construction (R33): it is one byte. -/
theorem memWrite_byte (b v : Byte) (s : State) :
    memWrite b.toNat v s = .ok { s with mem := s.mem.write b.toNat v } :=
  memWrite_of_lt (Nat.lt_of_lt_of_le b.isLt (by decide)) v s

/-! ### The framebuffer (R107) -/

theorem fbAddress_lt {xv yv : Nat} (hx : xv < Config.fbW) (hy : yv < Config.fbH) :
    fbAddress xv yv < Config.memSize := by
  simp only [fbAddress, Config.framebufferStart, Config.fbW, Config.fbH, Config.memSize] at *
  omega

theorem le_fbAddress (xv yv : Nat) : Config.framebufferStart ≤ fbAddress xv yv := by
  simp only [fbAddress, Config.framebufferStart]
  omega

theorem plot_on_screen {xv yv : Nat} (hx : xv < Config.fbW) (hy : yv < Config.fbH) (c : Byte) (s : State) :
    plot xv yv c s = .ok { s with mem := s.mem.write (fbAddress xv yv) c } := by
  rw [plot, if_pos ⟨hx, hy⟩, memWrite_of_lt (fbAddress_lt hx hy)]

theorem plot_off_screen {xv yv : Nat} (h : ¬(xv < Config.fbW ∧ yv < Config.fbH)) (c : Byte) (s : State) :
    plot xv yv c s = .ok s := if_neg h

/-- Plotting never faults, and changes at most the one cell of a pixel on the screen. -/
theorem plot_eq_ok {xv yv : Nat} {c : Byte} {s t : State} :
    plot xv yv c s = .ok t ↔
      (xv < Config.fbW ∧ yv < Config.fbH ∧ t = { s with mem := s.mem.write (fbAddress xv yv) c }) ∨
      (¬(xv < Config.fbW ∧ yv < Config.fbH) ∧ t = s) := by
  by_cases h : xv < Config.fbW ∧ yv < Config.fbH
  · rw [plot_on_screen h.1 h.2, Except.ok.injEq, eq_comm]
    constructor
    · exact fun e => Or.inl ⟨h.1, h.2, e⟩
    · rintro (⟨-, -, e⟩ | ⟨h', -⟩)
      · exact e
      · exact absurd h h'
  · rw [plot_off_screen h, Except.ok.injEq, eq_comm]
    constructor
    · exact fun e => Or.inr ⟨h, e⟩
    · rintro (⟨hx, hy, -⟩ | ⟨-, e⟩)
      · exact absurd ⟨hx, hy⟩ h
      · exact e

theorem plot_ne_error (xv yv : Nat) (c : Byte) (s : State) (f : Fault) : plot xv yv c s ≠ .error f := by
  by_cases h : xv < Config.fbW ∧ yv < Config.fbH
  · simp [plot_on_screen h.1 h.2]
  · simp [plot_off_screen h]

end Sys2Proof.Machine
end

