-- ==== Sys2Proof/Laws/Exec.lean ====
section
/-! SUPPORT. What each instruction can answer: the next state it gives and when, and the fault it raises and when.
Everything later is derived from these, without unfolding a meaning again. -/

namespace Sys2Proof.Machine

theorem exec_load_eq_next {rd imm8 : Byte} {s t : State} : exec (.load rd imm8) s = .next t ↔
    ∃ d : Fin Config.nregs, d.val = rd.toNat ∧ t = (s.setX d (zextByte imm8)).advance 3 := by
  simp only [exec, execLoad, finish_eq_next, bind_eq_ok, regOperand_eq_ok, pure_eq_ok, Except.ok.injEq,
    eq_comm (a := t)]

theorem arith_eq_next {f : Word → Word → Word} {rd rs1 rs2 : Byte} {s t : State} : arith f rd rs1 rs2 s = .next t ↔
    ∃ d : Fin Config.nregs, d.val = rd.toNat ∧ ∃ a : Fin Config.nregs, a.val = rs1.toNat ∧
      ∃ b : Fin Config.nregs, b.val = rs2.toNat ∧ t = (s.setX d (f (s.getX a) (s.getX b))).advance 4 := by
  simp only [arith, finish_eq_next, bind_eq_ok, regOperand_eq_ok, pure_eq_ok, Except.ok.injEq, eq_comm (a := t)]

theorem exec_add_eq_next {rd rs1 rs2 : Byte} {s t : State} : exec (.add rd rs1 rs2) s = .next t ↔
    ∃ d : Fin Config.nregs, d.val = rd.toNat ∧ ∃ a : Fin Config.nregs, a.val = rs1.toNat ∧
      ∃ b : Fin Config.nregs, b.val = rs2.toNat ∧ t = (s.setX d (s.getX a + s.getX b)).advance 4 := arith_eq_next

theorem exec_sub_eq_next {rd rs1 rs2 : Byte} {s t : State} : exec (.sub rd rs1 rs2) s = .next t ↔
    ∃ d : Fin Config.nregs, d.val = rd.toNat ∧ ∃ a : Fin Config.nregs, a.val = rs1.toNat ∧
      ∃ b : Fin Config.nregs, b.val = rs2.toNat ∧ t = (s.setX d (s.getX a - s.getX b)).advance 4 := arith_eq_next

theorem exec_store_eq_next {rs addr8 : Byte} {s t : State} : exec (.store rs addr8) s = .next t ↔
    ∃ r : Fin Config.nregs, r.val = rs.toNat ∧
      t = ({ s with mem := s.mem.write addr8.toNat (lowByte (s.getX r)) } : State).advance 3 := by
  simp only [exec, execStore, finish_eq_next, bind_eq_ok, regOperand_eq_ok, memWrite_byte, ok_bind, pure_eq_ok,
    Except.ok.injEq, eq_comm (a := t)]

theorem exec_print_eq_next {rs : Byte} {s t : State} : exec (.print rs) s = .next t ↔
    ∃ r : Fin Config.nregs, r.val = rs.toNat ∧ t = (s.emit (s.getX r)).advance 2 := by
  simp only [exec, execPrint, finish_eq_next, bind_eq_ok, regOperand_eq_ok, pure_eq_ok, Except.ok.injEq,
    eq_comm (a := t)]

theorem isZero_eq_true {w : Word} : isZero w = true ↔ w = 0 := by simp [isZero]

theorem exec_jz_eq_next {rs addr8 : Byte} {s t : State} : exec (.jz rs addr8) s = .next t ↔
    ∃ r : Fin Config.nregs, r.val = rs.toNat ∧ t = if s.getX r = 0 then s.jumpTo addr8 else s.advance 3 := by
  simp only [exec, execJz, finish_eq_next, bind_eq_ok, regOperand_eq_ok, pure_eq_ok, Except.ok.injEq,
    eq_comm (a := t), isZero_eq_true]

theorem exec_jmp_eq_next {addr8 : Byte} {s t : State} : exec (.jmp addr8) s = .next t ↔ t = s.jumpTo addr8 := by
  simp only [exec, execJmp, finish_eq_next, pure_eq_ok, Except.ok.injEq, eq_comm (a := t)]

theorem exec_pix_eq_next {x8 y8 color8 : Byte} {s t : State} : exec (.pix x8 y8 color8) s = .next t ↔
    ∃ u, plot x8.toNat y8.toNat color8 s = .ok u ∧ t = u.advance 4 := by
  simp only [exec, execPix, finish_eq_next, bind_eq_ok, pure_eq_ok, Except.ok.injEq, eq_comm (a := t)]

theorem exec_pixr_eq_next {rx ry rc : Byte} {s t : State} : exec (.pixr rx ry rc) s = .next t ↔
    ∃ i : Fin Config.nregs, i.val = rx.toNat ∧ ∃ j : Fin Config.nregs, j.val = ry.toNat ∧
      ∃ k : Fin Config.nregs, k.val = rc.toNat ∧
        ∃ u, plot (s.getX i).toNat (s.getX j).toNat (lowByte (s.getX k)) s = .ok u ∧ t = u.advance 4 := by
  simp only [exec, execPixr, finish_eq_next, bind_eq_ok, regOperand_eq_ok, pure_eq_ok, Except.ok.injEq,
    eq_comm (a := t)]

theorem exec_halt_eq_next {s t : State} : exec .halt s = .next t ↔ t = s.endRun := by
  simp only [exec, execHalt, finish_eq_next, pure_eq_ok, Except.ok.injEq, eq_comm (a := t)]

/-- The registers an instruction checks decide whether it faults, and nothing else does: the state plays no part. -/
theorem exec_fault_congr {i : Instr} {s u : State} {f : Fault} (h : exec i s = .fault f) : exec i u = .fault f := by
  cases i <;>
    simp only [exec, execLoad, execAdd, execSub, arith, execStore, execPrint, execJz, execJmp, execPix, execPixr,
      execHalt, finish_eq_fault, bind_eq_error, regOperand_eq_error, regOperand_eq_ok, memWrite_byte, ok_bind,
      pure_eq_ok, plot_ne_error, reduceCtorEq, and_false, exists_false, or_false] at h ⊢ <;>
    exact h

end Sys2Proof.Machine
end

