-- ==== Sys2Proof/Laws/Fetch.lean ====
section
/-! SUPPORT. What the fetch window holds, and what a step is once the instruction is fetched. -/

namespace Sys2Proof.Machine

theorem fetchWindow_length (s : State) :
    (fetchWindow s).length = min Config.maxInstrBytes (Config.memSize - s.pc) := by
  simp [fetchWindow]

theorem fetchWindow_getElem (s : State) (k : Nat) (h : k < (fetchWindow s).length) :
    (fetchWindow s)[k] = s.mem.read (s.pc + k) := by
  simp [fetchWindow]

theorem fetchWindow_of_ge {s : State} (h : Config.memSize ≤ s.pc) : fetchWindow s = [] := by
  apply List.eq_nil_of_length_eq_zero
  rw [fetchWindow_length]
  omega

/-- Below the end of memory the window begins with the cell at the program counter. -/
theorem fetchWindow_cons {s : State} (h : s.pc < Config.memSize) :
    ∃ rest, fetchWindow s = s.mem.read s.pc :: rest := by
  have hl := fetchWindow_length s
  cases hw : fetchWindow s with
  | nil =>
    simp only [hw, List.length_nil, Config.memSize, Config.maxInstrBytes] at hl h
    omega
  | cons b rest =>
    have := fetchWindow_getElem s 0 (by simp [hw])
    simp [hw] at this
    exact ⟨rest, by rw [this]⟩

/-- The fetch looks at memory and program counter alone. -/
theorem fetchWindow_congr {s t : State} (hm : t.mem = s.mem) (hp : t.pc = s.pc) : fetchWindow t = fetchWindow s := by
  simp [fetchWindow, hm, hp]

theorem fetchInstr_congr {s t : State} (hm : t.mem = s.mem) (hp : t.pc = s.pc) : fetchInstr t = fetchInstr s := by
  simp [fetchInstr, fetchWindow_congr hm hp, hp]

theorem step_of_fetch {s : State} {i : Instr} (h : fetchInstr s = .ok i) : step s = exec i s := by
  simp [step, h]

theorem step_of_fault {s : State} {f : Fault} (h : fetchInstr s = .error f) : step s = .fault f := by
  simp [step, h]

/-- A step answers a next state exactly when an instruction is fetched and it does. -/
theorem step_eq_next {s t : State} : step s = .next t ↔ ∃ i, fetchInstr s = .ok i ∧ exec i s = .next t := by
  unfold step
  cases fetchInstr s <;> simp

end Sys2Proof.Machine
end

