-- ==== Sys2Proof/Laws/PerInstr.lean ====
section
/-! SUPPORT. Statements about every instruction as syntax, one lemma per constructor. -/

namespace Sys2Proof.Laws.EncodedLength

/-- The encoding of an instruction has the length its opcode fixes (R57). -/
def Statement (i : Instr) : Prop := (encode i).length = i.length

theorem load (rd imm8 : Byte) : Statement (.load rd imm8) := rfl
theorem add (rd rs1 rs2 : Byte) : Statement (.add rd rs1 rs2) := rfl
theorem sub (rd rs1 rs2 : Byte) : Statement (.sub rd rs1 rs2) := rfl
theorem store (rs addr8 : Byte) : Statement (.store rs addr8) := rfl
theorem print (rs : Byte) : Statement (.print rs) := rfl
theorem jz (rs addr8 : Byte) : Statement (.jz rs addr8) := rfl
theorem jmp (addr8 : Byte) : Statement (.jmp addr8) := rfl
theorem pix (x8 y8 color8 : Byte) : Statement (.pix x8 y8 color8) := rfl
theorem pixr (rx ry rc : Byte) : Statement (.pixr rx ry rc) := rfl
theorem halt : Statement .halt := rfl

end Sys2Proof.Laws.EncodedLength

namespace Sys2Proof.Laws.RegOperandsByFormat

/-- The register-index operands of an instruction are the bytes of its encoding at its format's offsets (R51, R53). -/
def Statement (i : Instr) : Prop := i.op.format.regOffsets.map (fun k => (encode i)[k]?) = i.regOperands.map some

theorem load (rd imm8 : Byte) : Statement (.load rd imm8) := rfl
theorem add (rd rs1 rs2 : Byte) : Statement (.add rd rs1 rs2) := rfl
theorem sub (rd rs1 rs2 : Byte) : Statement (.sub rd rs1 rs2) := rfl
theorem store (rs addr8 : Byte) : Statement (.store rs addr8) := rfl
theorem print (rs : Byte) : Statement (.print rs) := rfl
theorem jz (rs addr8 : Byte) : Statement (.jz rs addr8) := rfl
theorem jmp (addr8 : Byte) : Statement (.jmp addr8) := rfl
theorem pix (x8 y8 color8 : Byte) : Statement (.pix x8 y8 color8) := rfl
theorem pixr (rx ry rc : Byte) : Statement (.pixr rx ry rc) := rfl
theorem halt : Statement .halt := rfl

end Sys2Proof.Laws.RegOperandsByFormat
end

