-- ==== Sys2Proof/Tests/Slice0.lean ====
section
/-! SUPPORT. The model's own tests. Expected results come from spec/95_test_vectors.md (its Parts 2, 4 and 5) and from
the bit patterns of spec/30_encoding.md R52. The witnesses show that the hypotheses of the statements can be met. -/

namespace Sys2Proof.Tests

open Sys2Proof.Machine

/-! ### Helpers -/

/-- The next state of an outcome, if there is one. -/
def after : Host.Outcome State Fault Refusal → Option State
  | .next t => some t
  | .fault _ => none
  | .refused _ => none

/-- The fault of an outcome, if there is one. -/
def faultOf : Host.Outcome State Fault Refusal → Option Fault
  | .next _ => none
  | .fault f => some f
  | .refused _ => none

/-- The power-on state with bytes loaded at an address and the program counter there. -/
def at_ (pc : Nat) (bytes : List Byte) : State := { loadBytes pc bytes State.reset with pc := pc }

/-- The same with some registers set. -/
def with_ (s : State) (vs : List (Fin Config.nregs × Word)) : State := vs.foldl (fun t v => t.setX v.1 v.2) s

/-- The same with a Run in progress. -/
def running (s : State) : State := { s with control := .running }

/-! ### Well-formedness refuses each register index of 8 or more (R56) -/

theorem test_wf_load : Instr.wellFormed (.load 8 5) = false := by decide
theorem test_wf_add : Instr.wellFormed (.add 8 0 0) = false ∧ Instr.wellFormed (.add 0 8 0) = false ∧
    Instr.wellFormed (.add 0 0 8) = false := by decide
theorem test_wf_sub : Instr.wellFormed (.sub 255 0 0) = false ∧ Instr.wellFormed (.sub 0 9 0) = false ∧
    Instr.wellFormed (.sub 0 0 16) = false := by decide
theorem test_wf_store : Instr.wellFormed (.store 8 0) = false := by decide
theorem test_wf_print : Instr.wellFormed (.print 8) = false := by decide
theorem test_wf_jz : Instr.wellFormed (.jz 8 29) = false := by decide
theorem test_wf_pixr : Instr.wellFormed (.pixr 8 0 0) = false ∧ Instr.wellFormed (.pixr 0 8 0) = false ∧
    Instr.wellFormed (.pixr 0 0 8) = false := by decide
theorem test_wf_accepts : Instr.wellFormed (.add 7 7 7) = true ∧ Instr.wellFormed (.pix 255 255 255) = true ∧
    Instr.wellFormed .halt = true := by decide

/-! ### Decoding of words written out from R52's patterns, and of the rejected ones -/

theorem test_decode_load : decode [0b00000001, 0b00000111, 0b11111111] = .instr (.load 7 255) [] := by decide
theorem test_decode_add : decode [0b00000010, 0b00000010, 0b00000000, 0b00000001] = .instr (.add 2 0 1) [] := by decide
theorem test_decode_sub : decode [0b00000011, 0b00000000, 0b00000100, 0b00000001] = .instr (.sub 0 4 1) [] := by decide
theorem test_decode_store : decode [0b00000100, 0b00000001, 0b00100000] = .instr (.store 1 32) [] := by decide
theorem test_decode_print : decode [0b00000101, 0b00000010] = .instr (.print 2) [] := by decide
theorem test_decode_jz : decode [0b00000110, 0b00000011, 0b00011101] = .instr (.jz 3 29) [] := by decide
theorem test_decode_jmp : decode [0b00000111, 0b00001100] = .instr (.jmp 12) [] := by decide
theorem test_decode_pix : decode [0b00001000, 0b00000010, 0b00000011, 0b00000111] = .instr (.pix 2 3 7) [] := by decide
theorem test_decode_pixr : decode [0b00001001, 0b00000000, 0b00000001, 0b00000010] = .instr (.pixr 0 1 2) [] := by decide
theorem test_decode_halt : decode [0b11111111, 0b00000001] = .instr .halt [0b00000001] := by decide
theorem test_decode_illegal : decode [0x00, 1] = .illegalOpcode 0 ∧ decode [0x0A] = .illegalOpcode 10 ∧
    decode [0xFE] = .illegalOpcode 254 := by decide
theorem test_decode_short : decode [] = .noOpcode ∧ decode [0x07] = .missingOperand ∧
    decode [0x02, 0, 1] = .missingOperand := by decide
theorem test_table_word : decodeTableWord 24 0x200104 = some (.store 1 0x20) ∧ decodeTableWord 8 0xFF = some .halt ∧
    decodeTableWord 8 0x09 = some (.pixr 0 0 0) ∧ decodeTableWord 8 0 = none := by decide
theorem test_fetch_word : after (step (State.reset.withFetchWord 24 0x2A0001)) =
    after (exec (.load 0 42) (State.reset.withFetchWord 24 0x2A0001)) := by decide

/-! ### One step of each instruction (spec/95_test_vectors.md Part 2) -/

theorem test_load_whole_register : (after (step (with_ (at_ 0 [0x01, 0x07, 0xFF]) [(7, 0xFFFFFFFF)]))).map
    (fun t => (t.getX 7, t.pc)) = some (255, 3) := by decide
theorem test_load_bad_index : faultOf (step (at_ 10 [0x01, 0x08, 0x05])) = some (.addressing .regIndex 8) := by decide

theorem test_add_not_clamped : (after (step (with_ (at_ 0 [0x02, 0x02, 0x00, 0x01]) [(0, 200), (1, 100)]))).map
    (fun t => (t.getX 2, t.pc)) = some (300, 4) := by decide
theorem test_add_wraps_onto_its_source : (after (step (with_ (at_ 0 [0x02, 0x00, 0x00, 0x00]) [(0, 0x80000000)]))).map
    (fun t => t.getX 0) = some 0 := by decide

theorem test_sub_underflow : (after (step (with_ (at_ 0 [0x03, 0x00, 0x00, 0x01]) [(0, 5), (1, 7)]))).map
    (fun t => t.getX 0) = some 0xFFFFFFFE := by decide
theorem test_sub_first_bad_index : faultOf (step (at_ 0 [0x03, 0x09, 0x0A, 0x00])) =
    some (.addressing .regIndex 9) := by decide

theorem test_store_low_byte : (after (step (with_ (at_ 0 [0x04, 0x00, 0x10]) [(0, 0x1FF)]))).map
    (fun t => (t.mem.read 16, t.getX 0, t.pc)) = some (0xFF, 0x1FF, 3) := by decide
theorem test_store_over_its_own_opcode : (after (step (with_ (at_ 0 [0x04, 0x02, 0x00]) [(2, 0xAB)]))).map
    (fun t => (t.mem.read 0, t.pc)) = some (0xAB, 3) := by decide

theorem test_print_whole_register : (after (step (with_ (at_ 0 [0x05, 0x00]) [(0, 0xFFFFFFFF)]))).map
    (fun t => (t.out, t.pc)) = some ([4294967295], 2) := by decide
theorem test_print_bad_index : faultOf (step (at_ 0 [0x05, 0x08])) = some (.addressing .regIndex 8) := by decide

theorem test_jz_tests_the_whole_register : (after (step (with_ (at_ 12 [0x06, 0x03, 0x1D]) [(3, 0x100)]))).map
    (fun t => t.pc) = some 15 := by decide
theorem test_jz_taken_from_beyond_the_window : (after (step (at_ 300 [0x06, 0x00, 0xFF]))).map
    (fun t => t.pc) = some 255 := by decide

theorem test_jmp : (after (step (at_ 27 [0x07, 0x0C]))).map (fun t => t.pc) = some 12 := by decide

theorem test_halt_is_a_rest_state : dispatch (at_ 7 [0xFF]) = (at_ 7 [0xFF], .halted) := by decide
theorem test_halt_on_the_last_cell : (dispatch (at_ 2047 [0xFF])).2 = .halted := by decide

theorem test_pix_last_cell : (after (step (at_ 0 [0x08, 0x1F, 0x1F, 0xC8]))).map
    (fun t => (t.mem.read 2047, t.pc)) = some (200, 4) := by decide
theorem test_pix_column_does_not_wrap : (after (step (at_ 0 [0x08, 0x20, 0x00, 0x05]))).map
    (fun t => (t.mem, t.pc)) = some ((at_ 0 [0x08, 0x20, 0x00, 0x05]).mem, 4) := by decide

theorem test_pixr_colour_narrowed : (after (step (with_ (at_ 0 [0x09, 0x00, 0x01, 0x02])
    [(0, 1), (1, 1), (2, 0x1FF)]))).map (fun t => t.mem.read 1057) = some 0xFF := by decide
theorem test_pixr_index_before_coordinates : faultOf (step (with_ (at_ 0 [0x09, 0x00, 0x01, 0x08]) [(0, 40)])) =
    some (.addressing .regIndex 8) := by decide

/-! ### The end of memory, and the host (spec/95_test_vectors.md Parts 2 and 4) -/

theorem test_advance_to_the_end : (after (step (at_ 2046 [0x05, 0x00]))).map (fun t => t.pc) = some 2048 := by decide
theorem test_fetch_at_the_end : faultOf (step { State.reset with pc := 2048 }) =
    some (.addressing .pcOutOfRange 2048) := by decide
theorem test_operand_beyond_the_end : faultOf (step (at_ 2046 [0x01])) = some (.addressing .operandFetch 2048) := by decide
theorem test_decode_before_operand_range : faultOf (step (at_ 2047 [])) = some (.decode 0) := by decide
theorem test_load_over_a_faulting_byte : (transact (.load 3 0xFF) (at_ 3 [0x0A])).map
    (fun u => (dispatch u.1).2) = some .halted := by decide
theorem test_inspect_register_8 : transact (.inspectReg 8) State.reset =
    some (State.reset, .fault (.addressing .regIndex 8)) := by decide
theorem test_run_of_a_halt : (runFor 1 (at_ 0 [0xFF]).startRun).2 = .result .halted := by decide
theorem test_result_codes : Result.code .ok = some 0 ∧ Result.code .halted = some 1 ∧
    Result.code (.fault (.decode 0)) = some 2 ∧ Result.code (.fault (.addressing .regIndex 8)) = some 3 := by decide

/-! ### Witnesses: the hypotheses of the statements can be met, at the boundaries of their ranges -/

/-- LengthIsFixedByTheOpcode: each of its clauses. -/
theorem witness_length : decode (0x05 :: [0x02, 0x07]) = .instr (.print 2) [0x07] ∧
    (lengthOf 0 = none ∧ lengthOf 10 = none ∧ lengthOf 254 = none) ∧
    (lengthOf 0x07 = some 2 ∧ ([0x07] : List Byte).length < 2) ∧
    (lengthOf 0x02 = some 4 ∧ ([0x02, 0, 0] : List Byte).length < 4) := by decide

/-- DecodeFaultExactlyOnIllegalOpcodes: a dispatch, a Step and a Run that meet an illegal opcode. -/
theorem witness_decode_fault : (dispatch (at_ 2047 [0xFE])).2 = .fault (.decode 254) ∧
    transact .step (at_ 2047 [0xFE]) = some (at_ 2047 [0xFE], .result (.fault (.decode 254))) ∧
    engineMove (running (at_ 0 [0x0A])) = some (at_ 0 [0x0A], .result (.fault (.decode 10))) := by decide

/-- FramebufferAddressIsABijection: the four corners. -/
theorem witness_framebuffer_corners : fbAddress 0 0 = 1024 ∧ fbAddress 31 0 = 1055 ∧ fbAddress 0 31 = 2016 ∧
    fbAddress 31 31 = 2047 := by decide

/-- CanonicalMemoriesAreDeterminedByTheirReads: a memory with the first and the last cell listed. -/
theorem witness_canonical_memory : Memory.wf [(0, 1), (2047, 255)] ∧
    (∀ a, a < 2048 → Memory.read [(0, 1), (2047, 255)] a = Memory.read [(0, 1), (2047, 255)] a) :=
  ⟨by decide, fun _ _ => rfl⟩

/-- ResetValues, ResetOperationLeavesMemoryUntouched, ResetIsIdempotentAndCommutesWithLoad, RunIsResetThenSteps,
LoadAndInspectServeTheHost, ControlMachineMovesAsTabled: an Idle and a Running state. -/
theorem witness_idle_and_running : State.reset.control = .idle ∧ (running State.reset).control = .running := by decide

/-- The statements of LOAD, ADD, SUB, STORE, PRINT, JZ and PIXR: valid operand bytes at both ends of their range. -/
theorem witness_register_operand : (0 : Byte).toNat < 8 ∧ (7 : Byte).toNat < 8 ∧ ¬(8 : Byte).toNat < 8 := by decide

/-- JzTestsTheWholeRegister: a register that is not zero though its low byte is, and one that is zero. -/
theorem witness_jz_both_ways : ((with_ State.reset [(3, 0x100)]).getX ⟨(3 : Byte).toNat, by decide⟩).toNat ≠ 0 ∧
    (State.reset.getX ⟨(3 : Byte).toNat, by decide⟩).toNat = 0 := by decide

/-- PixSetsExactlyOneOnScreenCell: on the edge of the screen and just off it, on either coordinate. -/
theorem witness_pix_on_and_off_screen : ((31 : Byte).toNat < 32 ∧ (31 : Byte).toNat < 32) ∧
    (32 ≤ (32 : Byte).toNat ∨ 32 ≤ (0 : Byte).toNat) ∧ (32 ≤ (0 : Byte).toNat ∨ 32 ≤ (32 : Byte).toNat) := by decide

/-- PixrComparesWholeRegisters: on the edge of the screen, just off it, and a wrapped value. -/
theorem witness_pixr_on_and_off_screen :
    ((with_ State.reset [(0, 31)]).getX ⟨(0 : Byte).toNat, by decide⟩).toNat < 32 ∧
    32 ≤ ((with_ State.reset [(0, 32)]).getX ⟨(0 : Byte).toNat, by decide⟩).toNat ∧
    32 ≤ ((with_ State.reset [(0, 0xFFFFFFFF)]).getX ⟨(0 : Byte).toNat, by decide⟩).toNat := by decide

/-- HaltWritesNothing: an Idle state at a HALT. -/
theorem witness_halt_idle : (at_ 2047 [0xFF]).control = .idle := by decide

/-- FirstBadRegisterIndexIsReported: the first of two bad ones, and a bad last one. -/
theorem witness_first_bad_index :
    (Instr.sub 9 10 0).regOperands.find? (fun c => decide (8 ≤ c.toNat)) = some 9 ∧
    (Instr.pixr 0 7 8).regOperands.find? (fun c => decide (8 ≤ c.toNat)) = some 8 := by decide

/-- StepExecutesTheInstructionAtThePc: an instruction that ends at the last cell, of the least and of the greatest
length, and a step that answers a next state. -/
theorem witness_instr_at_pc : InstrAtPc .halt (at_ 2047 [0xFF]) ∧
    InstrAtPc (.pix 31 31 200) (at_ 2044 [0x08, 0x1F, 0x1F, 0xC8]) ∧
    ∃ t, step (at_ 2044 [0x08, 0x1F, 0x1F, 0xC8]) = .next t := ⟨by decide, by decide, _, rfl⟩

/-- FetchBeyondTheArrayFaults: the program counter at 2048, and the last place of each length at which an operand byte
is missing. -/
theorem witness_fetch_beyond_the_array :
    2048 ≤ ({ State.reset with pc := 2048 } : State).pc ∧
    ((at_ 2047 [0x07]).pc < 2048 ∧ lengthOf ((at_ 2047 [0x07]).mem.read (at_ 2047 [0x07]).pc) = some 2 ∧
      2048 < (at_ 2047 [0x07]).pc + 2) ∧
    ((at_ 2046 [0x06]).pc < 2048 ∧ lengthOf ((at_ 2046 [0x06]).mem.read (at_ 2046 [0x06]).pc) = some 3 ∧
      2048 < (at_ 2046 [0x06]).pc + 3) ∧
    ((at_ 2045 [0x02]).pc < 2048 ∧ lengthOf ((at_ 2045 [0x02]).mem.read (at_ 2045 [0x02]).pc) = some 4 ∧
      2048 < (at_ 2045 [0x02]).pc + 4) := by decide

/-- StepFaultsAreThoseListed: a fault of each of the four forms. -/
theorem witness_step_fault_of_each_form :
    (step (at_ 2047 []) = .fault (.decode 0) ∧ (at_ 2047 []).pc ≤ 2048) ∧
    (step (at_ 2048 []) = .fault (.addressing .pcOutOfRange 2048) ∧ (at_ 2048 []).pc ≤ 2048) ∧
    (step (at_ 2045 [0x02]) = .fault (.addressing .operandFetch 2048) ∧ (at_ 2045 [0x02]).pc ≤ 2048) ∧
    (step (at_ 2044 [0x02, 0, 0, 0xFF]) = .fault (.addressing .regIndex 255) ∧
      (at_ 2044 [0x02, 0, 0, 0xFF]).pc ≤ 2048) :=
  ⟨⟨rfl, by decide⟩, ⟨rfl, by decide⟩, ⟨rfl, by decide⟩, rfl, by decide⟩

/-- FaultsArePrecise: a fault in Idle, one in Running, and one after a step. -/
theorem witness_precise_fault :
    (step State.reset = .fault (.decode 0) ∧ State.reset.control = .idle) ∧
    (step (running State.reset) = .fault (.decode 0) ∧ (running State.reset).control = .running) ∧
    stepMany 2 (at_ 0 [0x07, 0x05]) = ({ at_ 0 [0x07, 0x05] with pc := 5 }, .fault (.decode 0)) :=
  ⟨⟨rfl, by decide⟩, ⟨rfl, by decide⟩, by decide⟩

/-- StepKeepsTheInvariant: a step that leads to the end of memory. -/
theorem witness_invariant_step : (at_ 2046 [0x05, 0x00]).Inv ∧
    ∃ t, step (at_ 2046 [0x05, 0x00]) = .next t ∧ t.pc = 2048 := ⟨by decide, _, rfl, rfl⟩

/-- HostAndRunMovesKeepTheInvariant: a Load at the last cell, and a turn of a Run. -/
theorem witness_invariant_moves :
    (State.reset.Inv ∧ ∃ t, transact (.load 2047 5) State.reset = some (t, .nothing)) ∧
    ((running (at_ 0 [0x07, 0x00])).Inv ∧ ∃ t r, engineMove (running (at_ 0 [0x07, 0x00])) = some (t, r)) :=
  ⟨⟨by decide, _, rfl⟩, by decide, _, _, rfl⟩

/-- OnlyTheListedWritersChangeMemory, InstructionsReachOnlyTheirRegion: STORE at the last cell it reaches. -/
theorem witness_store_changes_memory : InstrAtPc (.store 2 255) (with_ (at_ 0 [0x04, 0x02, 0xFF]) [(2, 0xAB)]) ∧
    ∃ t, step (with_ (at_ 0 [0x04, 0x02, 0xFF]) [(2, 0xAB)]) = .next t ∧
      t.mem.read 255 ≠ (with_ (at_ 0 [0x04, 0x02, 0xFF]) [(2, 0xAB)]).mem.read 255 := ⟨by decide, _, rfl, by decide⟩

/-- The same: PIX at the last cell of memory. -/
theorem witness_pix_changes_memory : InstrAtPc (.pix 31 31 200) (at_ 0 [0x08, 0x1F, 0x1F, 0xC8]) ∧
    ∃ t, step (at_ 0 [0x08, 0x1F, 0x1F, 0xC8]) = .next t ∧
      t.mem.read 2047 ≠ (at_ 0 [0x08, 0x1F, 0x1F, 0xC8]).mem.read 2047 := ⟨by decide, _, rfl, by decide⟩

/-- The same: PIXR at the first cell of the framebuffer. -/
theorem witness_pixr_changes_memory : InstrAtPc (.pixr 1 1 2) (with_ (at_ 0 [0x09, 0x01, 0x01, 0x02]) [(2, 9)]) ∧
    ∃ t, step (with_ (at_ 0 [0x09, 0x01, 0x01, 0x02]) [(2, 9)]) = .next t ∧
      t.mem.read 1024 ≠ (with_ (at_ 0 [0x09, 0x01, 0x01, 0x02]) [(2, 9)]).mem.read 1024 :=
  ⟨by decide, _, rfl, by decide⟩

/-- The same: a Load at the last cell, a fault, and a turn of a Run. -/
theorem witness_other_moves_on_memory :
    (∃ t, transact (.load 2047 1) State.reset = some (t, .nothing) ∧ t.mem.read 2047 ≠ State.reset.mem.read 2047) ∧
    (dispatch State.reset).2 = .fault (.decode 0) ∧ ∃ t, engineMove (running State.reset) =
      some (t, .result (.fault (.decode 0))) := ⟨⟨_, rfl, by decide⟩, by decide, _, rfl⟩

/-- OnlyTheListedWritersChangeRegisters: a step, a Step transaction and a Reset that change the last register. -/
theorem witness_register_changes :
    (∃ t, step (at_ 0 [0x01, 0x07, 0xFF]) = .next t ∧ t.getX 7 ≠ (at_ 0 [0x01, 0x07, 0xFF]).getX 7) ∧
    (∃ t, transact .step (at_ 0 [0x01, 0x07, 0xFF]) = some (t, .result .ok) ∧
      t.getX 7 ≠ (at_ 0 [0x01, 0x07, 0xFF]).getX 7) ∧
    (∃ t, transact .reset (with_ State.reset [(7, 1)]) = some (t, .nothing) ∧
      t.getX 7 ≠ (with_ State.reset [(7, 1)]).getX 7) := ⟨⟨_, rfl, by decide⟩, ⟨_, rfl, by decide⟩, _, rfl, by decide⟩

/-- ProgramCounterMovesOnlyAsListed: a step of an instruction of each shape, and a Run. -/
theorem witness_pc_of_each_shape :
    (InstrAtPc (.store 0 9) (at_ 9 [0x04, 0, 9]) ∧ ∃ t, step (at_ 9 [0x04, 0, 9]) = .next t) ∧
    (InstrAtPc (.sub 0 1 2) (at_ 9 [0x03, 0, 1, 2]) ∧ ∃ t, step (at_ 9 [0x03, 0, 1, 2]) = .next t) ∧
    (InstrAtPc (.print 0) (at_ 2046 [0x05, 0]) ∧ ∃ t, step (at_ 2046 [0x05, 0]) = .next t) ∧
    (InstrAtPc (.jz 7 0xFF) (at_ 9 [0x06, 7, 0xFF]) ∧ ∃ t, step (at_ 9 [0x06, 7, 0xFF]) = .next t) ∧
    (InstrAtPc (.jmp 0xFF) (at_ 9 [0x07, 0xFF]) ∧ ∃ t, step (at_ 9 [0x07, 0xFF]) = .next t) ∧
    (InstrAtPc .halt (at_ 2047 [0xFF]) ∧ ∃ t, step (at_ 2047 [0xFF]) = .next t) ∧
    ∃ t, transact .run (at_ 9 []) = some (t, .pending) :=
  ⟨⟨by decide, _, rfl⟩, ⟨by decide, _, rfl⟩, ⟨by decide, _, rfl⟩, ⟨by decide, _, rfl⟩, ⟨by decide, _, rfl⟩,
    ⟨by decide, _, rfl⟩, _, rfl⟩

/-- OnlyPrintEmits: a PRINT, another instruction, and a transaction that is no Step. -/
theorem witness_emission : (∃ t, step (at_ 9 [0x05, 0x07]) = .next t) ∧ (∃ t, step (at_ 9 [0x07, 0x07]) = .next t) ∧
    Transaction.inspectPc ≠ .step ∧ ∃ t r, transact .inspectPc (at_ 9 []) = some (t, r) :=
  ⟨⟨_, rfl⟩, ⟨_, rfl⟩, by decide, _, _, rfl⟩

/-- UnreadRegistersMakeNoDifference: the destination itself as the unread register, with a next state and with a
fault. -/
theorem witness_unread_register : (∀ b ∈ (Instr.add 0 1 2).regsRead, b.toNat ≠ (0 : Fin Config.nregs).val) ∧
    (∃ t, exec (.add 0 1 2) State.reset = .next t) ∧ (Instr.add 0 1 2).regWritten = some 0 ∧
    (∀ b ∈ (Instr.add 8 1 2).regsRead, b.toNat ≠ (0 : Fin Config.nregs).val) ∧
    exec (.add 8 1 2) State.reset = .fault (.addressing .regIndex 8) := ⟨by decide, ⟨_, rfl⟩, rfl, by decide, rfl⟩

/-- MemoryIsReadOnlyAsInstructionBytes: two states that differ in the cell after the window. -/
theorem witness_memory_elsewhere :
    (at_ 0 [0x07, 0x09, 0, 0, 0x55]).pc = (at_ 0 [0x07, 0x09]).pc ∧
    (at_ 0 [0x07, 0x09, 0, 0, 0x55]).x = (at_ 0 [0x07, 0x09]).x ∧
    (at_ 0 [0x07, 0x09, 0, 0, 0x55]).out = (at_ 0 [0x07, 0x09]).out ∧
    (at_ 0 [0x07, 0x09, 0, 0, 0x55]).control = (at_ 0 [0x07, 0x09]).control ∧
    (∀ k, k < 4 → (at_ 0 [0x07, 0x09]).pc + k < 2048 →
      (at_ 0 [0x07, 0x09, 0, 0, 0x55]).mem.read ((at_ 0 [0x07, 0x09]).pc + k) =
        (at_ 0 [0x07, 0x09]).mem.read ((at_ 0 [0x07, 0x09]).pc + k)) ∧
    (at_ 0 [0x07, 0x09, 0, 0, 0x55]).mem ≠ (at_ 0 [0x07, 0x09]).mem ∧ ∃ t, step (at_ 0 [0x07, 0x09]) = .next t :=
  ⟨by decide, by decide, by decide, by decide, by decide, by decide, _, rfl⟩

/-- StreamAndControlStateAreUnobserved: a step that answers a next state and one that faults. -/
theorem witness_unobserved : (∃ t, step (at_ 9 [0x05, 0x07]) = .next t) ∧ step State.reset = .fault (.decode 0) :=
  ⟨⟨_, rfl⟩, rfl⟩

/-- StoredBytesAreWhatIsFetched: the last cell STORE reaches, as an opcode and as a third operand byte. -/
theorem witness_fetch_of_a_stored_byte : (7 : Byte).toNat < 8 ∧ (0 < 4 ∧ 255 + 0 = (255 : Byte).toNat) ∧
    (3 < 4 ∧ 252 + 3 = (255 : Byte).toNat) := by decide

/-- SubUndoesAdd: three distinct registers. -/
theorem witness_distinct_registers : (7 : Byte).toNat < 8 ∧ (0 : Byte).toNat < 8 ∧ (1 : Byte).toNat < 8 ∧
    (7 : Byte) ≠ 0 ∧ (7 : Byte) ≠ 1 ∧ (0 : Byte) ≠ 1 := by decide

/-- HaltIsARestState: a HALT on the last cell, in Idle and in Running. -/
theorem witness_at_a_halt : (at_ 2047 [0xFF]).pc < 2048 ∧ (at_ 2047 [0xFF]).mem.read (at_ 2047 [0xFF]).pc = 0xFF ∧
    (at_ 2047 [0xFF]).control = .idle ∧ (running (at_ 2047 [0xFF])).control = .running ∧
    (dispatch (at_ 2047 [0xFF])).2 = .halted := by decide

/-- LifecyclePredictsTheDispatch: every class, with each cause of Faulted. -/
theorem witness_lifecycle : (at_ 2046 [0x05, 0x07]).lifecycle = .ready ∧ (at_ 2047 [0xFF]).lifecycle = .halted ∧
    (at_ 2047 []).lifecycle = .faulted ∧ (at_ 2046 [0x05, 0x08]).lifecycle = .faulted ∧
    (at_ 2047 [0x05]).lifecycle = .faulted ∧ (at_ 2048 []).lifecycle = .faulted := by decide

/-- StepsNeverLeaveHaltedOrFaulted: an Idle state of either class. -/
theorem witness_rest_classes : ((at_ 2047 [0xFF]).control = .idle ∧ (at_ 2047 [0xFF]).lifecycle ≠ .ready) ∧
    ((at_ 2048 []).control = .idle ∧ (at_ 2048 []).lifecycle ≠ .ready) := by decide

/-- EndedRunsStandOnAHaltOrAFault: a Run that ends on a HALT, and one that ends on a fault. -/
theorem witness_runs_that_end : runFor 2 (at_ 0 [0x07, 0x02, 0xFF]).startRun =
      ({ at_ 0 [0x07, 0x02, 0xFF] with pc := 2 }, .result .halted) ∧
    runFor 2 (at_ 0 [0x07, 0x02, 0x0A]).startRun =
      ({ at_ 0 [0x07, 0x02, 0x0A] with pc := 2 }, .result (.fault (.decode 0x0A))) := by decide

/-- RunIsResetThenSteps: Steps that end, and Steps that do not. -/
theorem witness_steps_that_end : (stepMany 2 (at_ 0 [0x07, 0x02, 0xFF]).resetCore).2 = .halted ∧
    (stepMany 1 (at_ 0 [0x07, 0x02, 0xFF]).resetCore).2 = .ok := by decide

/-- AnUnchangingLoopNeverEndsARun: a jump to itself. -/
theorem witness_unchanging_loop : dispatch (running (at_ 0 [0x07, 0x00])) = (running (at_ 0 [0x07, 0x00]), .ok) := by
  decide

/-- LoadAndInspectServeTheHost: the last and the first invalid address and index. -/
theorem witness_host_arguments : State.reset.control = .idle ∧ 2047 < 2048 ∧ 2048 ≤ 2048 ∧ 7 < 8 ∧ 8 ≤ 8 := by decide

/-- ControlMachineMovesAsTabled: a turn of a Run that goes on, one that halts and one that faults. -/
theorem witness_turn_of_a_run : (dispatch (running (at_ 0 [0x07, 0x00]))).2 = .ok ∧
    (dispatch (running (at_ 0 [0xFF]))).2 ≠ .ok ∧ (dispatch (running State.reset)).2 ≠ .ok := by decide

end Sys2Proof.Tests
end

/-! PROOFS of the family of spec/10_state.md: what the instruction at the program counter is, what the dispatch and the
moves of the driver answer, how the program counter moves, and the reset values. -/

namespace Sys2Proof

/-! ### Decoding what was encoded -/

/-- The operand bytes of an instruction are read back whatever follows them. -/
theorem decodeOperands_operands (i : Instr) (rest : List Byte) :
    decodeOperands i.op (i.operands ++ rest) = .instr i rest := by
  cases i <;> rfl

/-- R50, R52: the bytes of an instruction, whatever follows them, decode to it. -/
theorem decode_encode (i : Instr) (rest : List Byte) : decode (encode i ++ rest) = .instr i rest := by
  rw [encode, List.cons_append, decode_cons (Op.ofByte_toByte i.op), decodeOperands_operands]

theorem encode_length_le (i : Instr) : (encode i).length ≤ Config.maxInstrBytes := by
  cases i <;> simp [encode, Instr.operands, Config.maxInstrBytes]

end Sys2Proof

namespace Sys2Proof.Machine

/-! ### The instruction at the program counter -/

/-- The window reaches over every byte of the instruction at the program counter, so it begins with them. -/
theorem fetchWindow_of_instrAtPc {i : Instr} {s : State} (h : InstrAtPc i s) :
    ∃ rest, fetchWindow s = encode i ++ rest := by
  obtain ⟨hfits, hbytes⟩ := h
  have hle : (encode i).length ≤ min Config.maxInstrBytes (Config.memSize - s.pc) :=
    Nat.le_min.2 ⟨encode_length_le i, Nat.le_sub_of_add_le' hfits⟩
  obtain ⟨k, hk⟩ := Nat.exists_eq_add_of_le hle
  rw [fetchWindow, hk, List.range_add, List.map_append, hbytes]
  exact ⟨_, rfl⟩

theorem fetchInstr_of_instrAtPc {i : Instr} {s : State} (h : InstrAtPc i s) : fetchInstr s = .ok i := by
  obtain ⟨rest, hw⟩ := fetchWindow_of_instrAtPc h
  rw [fetchInstr, hw, decode_encode]

/-- R122: the step executes the instruction at the program counter. -/
theorem step_of_instrAtPc {i : Instr} {s : State} (h : InstrAtPc i s) : step s = exec i s :=
  step_of_fetch (fetchInstr_of_instrAtPc h)

/-- With the program counter at 0, the next opcode byte is that of cell 0 (R22). -/
theorem fetchWindow_head_of_pc_zero {s : State} (h : s.pc = 0) : (fetchWindow s).head? = some (s.mem.read 0) := by
  obtain ⟨rest, hw⟩ := fetchWindow_cons (s := s) (by simp [h])
  rw [hw, h, List.head?_cons]

/-! ### The dispatch -/

theorem dispatch_of_next {s t : State} (h : step s = .next t) :
    dispatch s = (t, if s.atHalt then .halted else .ok) := by
  simp [dispatch, h]

theorem dispatch_of_fault {s : State} {f : Fault} (h : step s = .fault f) : dispatch s = (s, .fault f) := by
  simp [dispatch, h]

theorem dispatch_of_refused {s : State} {q : Refusal} (h : step s = .refused q) : dispatch s = (s, .refused q) := by
  simp [dispatch, h]

theorem dispatch_snd_eq_fault {s : State} {f : Fault} : (dispatch s).2 = .fault f ↔ step s = .fault f := by
  cases hs : step s with
  | next t =>
    rw [dispatch_of_next hs]
    cases s.atHalt <;> simp
  | fault g => simp [dispatch_of_fault hs]
  | refused q => simp [dispatch_of_refused hs]

/-- R156: a dispatch that answers a fault leaves the state as it was. -/
theorem dispatch_fst_of_fault {s : State} {f : Fault} (h : (dispatch s).2 = .fault f) : (dispatch s).1 = s := by
  rw [dispatch_of_fault (dispatch_snd_eq_fault.1 h)]

/-! ### The moves of the host and of the engine -/

/-- R130, R136: a transaction is accepted exactly in Idle. -/
theorem transact_eq_some {tr : Transaction} {s : State} {p : State × Response} :
    transact tr s = some p ↔ s.control = .idle ∧ serve tr s = p := by
  cases h : s.control <;> simp [transact, h]

theorem transact_of_idle {s : State} (h : s.control = .idle) (tr : Transaction) :
    transact tr s = some (serve tr s) := transact_eq_some.2 ⟨h, rfl⟩

theorem transact_of_running {s : State} (h : s.control = .running) (tr : Transaction) : transact tr s = none := by
  simp [transact, h]

/-- R130: the engine moves on its own exactly in Running. -/
theorem engineMove_eq_some {s : State} {p : State × Response} :
    engineMove s = some p ↔ s.control = .running ∧ runTick s = p := by
  cases h : s.control <;> simp [engineMove, h]

/-- A turn of Run's loop ends in the state of its dispatch, the control state made Idle where the loop ends (R125). -/
theorem runTick_fst (s : State) :
    (runTick s).1 = if (dispatch s).2 = .ok then (dispatch s).1 else (dispatch s).1.endRun := by
  cases hd : dispatch s with
  | mk t r => cases r <;> simp [runTick, hd]

theorem runTick_pc (s : State) : (runTick s).1.pc = (dispatch s).1.pc := by
  rw [runTick_fst]
  split
  · rfl
  · exact State.endRun_pc _

/-! ### How the program counter moves (R15) -/

theorem memWrite_pc {a : Nat} {v : Byte} {s t : State} (h : memWrite a v s = .ok t) : t.pc = s.pc := by
  obtain ⟨-, rfl⟩ := memWrite_eq_ok.1 h
  rfl

theorem plot_pc {xv yv : Nat} {c : Byte} {s t : State} (h : plot xv yv c s = .ok t) : t.pc = s.pc := by
  obtain ⟨-, -, rfl⟩ | ⟨-, rfl⟩ := plot_eq_ok.1 h <;> rfl

/-- R15, R57: every instruction but JZ, JMP and HALT moves the program counter by the length its opcode fixes. -/
theorem exec_pc_of_sequential {i : Instr} {o : Op} {s t : State} (hop : i.op = o)
    (ho : o ≠ .jz ∧ o ≠ .jmp ∧ o ≠ .halt) (h : exec i s = .next t) : t.pc = s.pc + o.format.length := by
  obtain ⟨hjz, hjmp, hhalt⟩ := ho
  subst hop
  cases i with
  | load rd imm8 =>
    obtain ⟨d, -, rfl⟩ := exec_load_eq_next.1 h
    rfl
  | add rd rs1 rs2 =>
    obtain ⟨d, -, a, -, b, -, rfl⟩ := exec_add_eq_next.1 h
    rfl
  | sub rd rs1 rs2 =>
    obtain ⟨d, -, a, -, b, -, rfl⟩ := exec_sub_eq_next.1 h
    rfl
  | store rs addr8 =>
    obtain ⟨r, -, rfl⟩ := exec_store_eq_next.1 h
    rfl
  | print rs =>
    obtain ⟨r, -, rfl⟩ := exec_print_eq_next.1 h
    rfl
  | pix x8 y8 color8 =>
    obtain ⟨u, hu, rfl⟩ := exec_pix_eq_next.1 h
    rw [State.advance_pc, plot_pc hu]
    rfl
  | pixr rx ry rc =>
    obtain ⟨i, -, j, -, k, -, u, hu, rfl⟩ := exec_pixr_eq_next.1 h
    rw [State.advance_pc, plot_pc hu]
    rfl
  | jz rs addr8 => exact absurd rfl hjz
  | jmp addr8 => exact absurd rfl hjmp
  | halt => exact absurd rfl hhalt

/-- R95: JZ jumps when its register is zero, and otherwise moves on by its length. -/
theorem exec_jz_pc {rs addr8 : Byte} {s t : State} (hs : rs.toNat < 8) (h : exec (.jz rs addr8) s = .next t) :
    t.pc = if (s.getX ⟨rs.toNat, hs⟩).toNat = 0 then addr8.toNat else s.pc + 3 := by
  obtain ⟨r, hr, rfl⟩ := exec_jz_eq_next.1 h
  obtain rfl : r = ⟨rs.toNat, hs⟩ := Fin.ext hr
  rw [apply_ite State.pc, State.jumpTo_pc, State.advance_pc]
  exact if_congr BitVec.toNat_inj.symm rfl rfl

theorem exec_jmp_pc {addr8 : Byte} {s t : State} (h : exec (.jmp addr8) s = .next t) : t.pc = addr8.toNat := by
  rw [exec_jmp_eq_next.1 h, State.jumpTo_pc]

theorem exec_halt_pc {s t : State} (h : exec .halt s = .next t) : t.pc = s.pc := by
  rw [exec_halt_eq_next.1 h, State.endRun_pc]

/-- Of the transactions only Reset, Run and Step move the program counter. -/
theorem serve_pc (tr : Transaction) (s : State) :
    (serve tr s).1.pc = s.pc ∨ ((tr = .reset ∨ tr = .run) ∧ (serve tr s).1.pc = 0) ∨
      (tr = .step ∧ (serve tr s).1 = (dispatch s).1) := by
  cases tr with
  | load a v =>
    left
    cases hw : memWrite a v s with
    | ok t => simpa [serve, hw] using memWrite_pc hw
    | error f => simp [serve, hw]
  | reset => exact .inr (.inl ⟨.inl rfl, rfl⟩)
  | run => exact .inr (.inl ⟨.inr rfl, rfl⟩)
  | step => exact .inr (.inr ⟨rfl, rfl⟩)
  | inspectMem a =>
    left
    simp only [serve]
    split <;> rfl
  | inspectReg j =>
    left
    simp only [serve]
    split <;> rfl
  | inspectPc => exact .inl rfl

theorem serve_pc_eq_zero {tr : Transaction} (h : tr = .reset ∨ tr = .run) (s : State) : (serve tr s).1.pc = 0 := by
  obtain rfl | rfl := h <;> rfl

/-- Settles O33: each instruction's move of `pc` by the lemma of its shape, each driver's by that of its operation. -/
theorem programCounterMovesOnlyAsListed : Obligations.ProgramCounterMovesOnlyAsListed := by
  refine ⟨fun s t i hi hstep => ?_, fun s f hf => ?_, fun s t h => ?_, rfl, fun tr s t r h => ?_,
    fun tr s t r h htr => ?_, fun s t r h => ?_⟩
  · rw [step_of_instrAtPc hi] at hstep
    refine ⟨fun hop => ?_, fun hop => ?_, fun hop => ?_, ?_, ?_, ?_⟩
    · obtain hop | hop := hop <;> exact exec_pc_of_sequential hop (by decide) hstep
    · obtain hop | hop | hop | hop := hop <;> exact exec_pc_of_sequential hop (by decide) hstep
    · exact exec_pc_of_sequential hop (by decide) hstep
    · rintro rs addr8 hrs rfl
      exact exec_jz_pc hrs hstep
    · rintro addr8 rfl
      exact exec_jmp_pc hstep
    · rintro rfl
      exact exec_halt_pc hstep
  · rw [dispatch_fst_of_fault hf]
  · rw [dispatch_of_next h]
  · obtain ⟨-, hserve⟩ := transact_eq_some.1 h
    simpa [hserve] using serve_pc tr s
  · obtain ⟨-, hserve⟩ := transact_eq_some.1 h
    simpa [hserve] using serve_pc_eq_zero htr s
  · obtain ⟨-, htick⟩ := engineMove_eq_some.1 h
    simpa [htick] using runTick_pc s

/-! ### Reset values (R22) -/

@[simp] theorem State.getX_reset (j : Fin Config.nregs) : State.reset.getX j = 0 := by
  simp [State.reset]

@[simp] theorem State.getX_startRun (s : State) (j : Fin Config.nregs) : s.startRun.getX j = 0 :=
  State.getX_resetCore s j

/-- Settles O7: the Reset transaction leaves `resetCore`, the opening of a Run `startRun`, and both set `pc` to 0. -/
theorem resetValues : Obligations.ResetValues := by
  refine ⟨⟨State.getX_reset, rfl, Memory.read_nil, rfl, rfl⟩, fun s hidle => ?_, fun s hidle => ?_,
    fun s hrun => transact_of_running hrun .reset, fetchWindow_head_of_pc_zero rfl⟩
  · exact ⟨s.resetCore, transact_of_idle hidle .reset, s.getX_resetCore, rfl, fun _ => rfl, hidle, rfl,
      fetchWindow_head_of_pc_zero rfl⟩
  · exact ⟨s.startRun, .pending, transact_of_idle hidle .run, s.getX_startRun, rfl, fun _ => rfl, rfl, rfl,
      fetchWindow_head_of_pc_zero rfl⟩

end Sys2Proof.Machine

/-! PROOFS of the family of spec/20_memory.md: the instruction fetched stands at the program counter byte by byte, and
the complete list of what changes a cell. -/

namespace Sys2Proof

/-! ### Only encoded bytes decode -/

/-- The converse of `decodeOperands_operands`: an opcode reads its own instruction, from that instruction's bytes. -/
theorem operands_of_decodeOperands {o : Op} {bs rest : List Byte} {i : Instr}
    (h : decodeOperands o bs = .instr i rest) : i.op = o ∧ bs = i.operands ++ rest := by
  cases o
  case halt =>
    obtain ⟨rfl, rfl⟩ := Decoded.instr.inj h
    exact ⟨rfl, rfl⟩
  case print | jmp =>
    obtain ⟨b1, rfl, rfl⟩ := operand1_eq_instr.1 h
    exact ⟨rfl, rfl⟩
  case load | store | jz =>
    obtain ⟨b1, b2, rfl, rfl⟩ := operand2_eq_instr.1 h
    exact ⟨rfl, rfl⟩
  case add | sub | pix | pixr =>
    obtain ⟨b1, b2, b3, rfl, rfl⟩ := operand3_eq_instr.1 h
    exact ⟨rfl, rfl⟩

/-- R50, R52: decoding answers an instruction exactly for that instruction's bytes followed by the rest. -/
theorem decode_eq_instr {bs rest : List Byte} {i : Instr} : decode bs = .instr i rest ↔ bs = encode i ++ rest := by
  refine ⟨fun h => ?_, fun h => h ▸ decode_encode i rest⟩
  cases bs with
  | nil => cases h
  | cons b bs =>
    cases ho : Op.ofByte b with
    | none => simp [decode_illegal ho] at h
    | some o =>
      rw [decode_cons ho] at h
      obtain ⟨rfl, rfl⟩ := operands_of_decodeOperands h
      rw [Op.toByte_of_ofByte ho, encode, List.cons_append]

end Sys2Proof

namespace Sys2Proof.Machine

/-! ### The instruction fetched stands at the program counter -/

theorem fetchInstr_eq_ok {s : State} {i : Instr} :
    fetchInstr s = .ok i ↔ ∃ rest, fetchWindow s = encode i ++ rest := by
  simp only [← decode_eq_instr, fetchInstr]
  cases decode (fetchWindow s) <;> simp

/-- The converse of `fetchWindow_of_instrAtPc`: the window lies in the array, so the bytes it begins with do. -/
theorem instrAtPc_of_fetchWindow {i : Instr} {s : State} {rest : List Byte} (h : fetchWindow s = encode i ++ rest) :
    InstrAtPc i s := by
  have hle : (encode i).length ≤ min Config.maxInstrBytes (Config.memSize - s.pc) := by
    rw [← fetchWindow_length, h, List.length_append]
    exact Nat.le_add_right _ _
  have hpos : 0 < (encode i).length := Nat.succ_pos _
  refine ⟨by omega, ?_⟩
  have htake : (fetchWindow s).take (encode i).length = encode i := by rw [h, List.take_left]
  rwa [fetchWindow, ← List.map_take, List.take_range, Nat.min_eq_left hle] at htake

theorem fetchInstr_eq_ok_iff_instrAtPc {i : Instr} {s : State} : fetchInstr s = .ok i ↔ InstrAtPc i s := by
  refine ⟨fun h => ?_, fetchInstr_of_instrAtPc⟩
  obtain ⟨rest, hw⟩ := fetchInstr_eq_ok.1 h
  exact instrAtPc_of_fetchWindow hw

/-- R122: a step answers a next state exactly as the instruction at the program counter does. -/
theorem step_eq_next_instrAtPc {s t : State} : step s = .next t ↔ ∃ i, InstrAtPc i s ∧ exec i s = .next t := by
  simp only [step_eq_next, fetchInstr_eq_ok_iff_instrAtPc]

/-! ### What changes a cell (R46) -/

/-- R33: a write changes no cell but its own. -/
theorem Memory.eq_of_read_write_ne {m : Memory} {a b : Nat} {v : Byte} (h : (m.write a v).read b ≠ m.read b) :
    b = a := by
  by_contra hba
  exact h (by rw [Memory.read_write, if_neg hba])

/-- R107: plotting changes the cell of a pixel on the screen and no other. -/
theorem plot_changes_cell {xv yv a : Nat} {c : Byte} {s t : State} (h : plot xv yv c s = .ok t)
    (hne : t.mem.read a ≠ s.mem.read a) : xv < Config.fbW ∧ yv < Config.fbH ∧ a = fbAddress xv yv := by
  obtain ⟨hx, hy, rfl⟩ | ⟨-, rfl⟩ := plot_eq_ok.1 h
  · exact ⟨hx, hy, Memory.eq_of_read_write_ne hne⟩
  · exact absurd rfl hne

/-- R32, R46: of the instructions only STORE, PIX and PIXR change a cell, each the one cell it names. -/
theorem exec_changes_cell {i : Instr} {s t : State} {a : Nat} (h : exec i s = .next t)
    (hne : t.mem.read a ≠ s.mem.read a) :
    (∃ rs addr8, i = .store rs addr8 ∧ a = addr8.toNat) ∨
    (∃ x8 y8 color8, i = .pix x8 y8 color8 ∧ x8.toNat < 32 ∧ y8.toNat < 32 ∧ a = fbAddress x8.toNat y8.toNat) ∨
    (∃ (rx ry rc : Byte) (hx : rx.toNat < 8) (hy : ry.toNat < 8), i = .pixr rx ry rc ∧
      (s.getX ⟨rx.toNat, hx⟩).toNat < 32 ∧ (s.getX ⟨ry.toNat, hy⟩).toNat < 32 ∧
      a = fbAddress (s.getX ⟨rx.toNat, hx⟩).toNat (s.getX ⟨ry.toNat, hy⟩).toNat) := by
  cases i with
  | store rs addr8 =>
    obtain ⟨r, -, rfl⟩ := exec_store_eq_next.1 h
    exact .inl ⟨rs, addr8, rfl, Memory.eq_of_read_write_ne hne⟩
  | pix x8 y8 color8 =>
    obtain ⟨u, hu, rfl⟩ := exec_pix_eq_next.1 h
    exact .inr (.inl ⟨x8, y8, color8, rfl, plot_changes_cell hu hne⟩)
  | pixr rx ry rc =>
    obtain ⟨⟨_, hx⟩, rfl, ⟨_, hy⟩, rfl, k, -, u, hu, rfl⟩ := exec_pixr_eq_next.1 h
    exact .inr (.inr ⟨rx, ry, rc, hx, hy, rfl, plot_changes_cell hu hne⟩)
  | load rd imm8 =>
    obtain ⟨d, -, rfl⟩ := exec_load_eq_next.1 h
    exact absurd rfl hne
  | add rd rs1 rs2 =>
    obtain ⟨d, -, b, -, c, -, rfl⟩ := exec_add_eq_next.1 h
    exact absurd rfl hne
  | sub rd rs1 rs2 =>
    obtain ⟨d, -, b, -, c, -, rfl⟩ := exec_sub_eq_next.1 h
    exact absurd rfl hne
  | print rs =>
    obtain ⟨r, -, rfl⟩ := exec_print_eq_next.1 h
    exact absurd rfl hne
  | jz rs addr8 =>
    obtain ⟨r, -, rfl⟩ := exec_jz_eq_next.1 h
    split at hne <;> exact absurd rfl hne
  | jmp addr8 =>
    obtain rfl := exec_jmp_eq_next.1 h
    exact absurd rfl hne
  | halt =>
    obtain rfl := exec_halt_eq_next.1 h
    exact absurd rfl hne

/-- Of the transactions only a Load, at its own address, and a Step change a cell. -/
theorem serve_changes_cell {tr : Transaction} {s : State} {a : Nat}
    (hne : (serve tr s).1.mem.read a ≠ s.mem.read a) : (∃ v, tr = .load a v) ∨ tr = .step := by
  cases tr with
  | load b v =>
    obtain hlt | hge := Nat.lt_or_ge b Config.memSize
    · rw [serve, memWrite_of_lt hlt] at hne
      obtain rfl := Memory.eq_of_read_write_ne hne
      exact .inl ⟨v, rfl⟩
    · rw [serve, memWrite_of_ge hge] at hne
      exact absurd rfl hne
  | step => exact .inr rfl
  | reset => exact absurd rfl hne
  | run => exact absurd rfl hne
  | inspectMem b =>
    rw [serve] at hne
    split at hne <;> exact absurd rfl hne
  | inspectReg j =>
    rw [serve] at hne
    split at hne <;> exact absurd rfl hne
  | inspectPc => exact absurd rfl hne

theorem runTick_mem (s : State) : (runTick s).1.mem = (dispatch s).1.mem := by
  rw [runTick_fst]
  split
  · rfl
  · exact State.endRun_mem _

/-- Settles O30: the step by the instruction it executes, the host by its transaction, a turn of Run by its dispatch. -/
theorem onlyTheListedWritersChangeMemory : Obligations.OnlyTheListedWritersChangeMemory := by
  refine ⟨Memory.read_nil, fun s t a hstep hne => ?_, fun s f hf => ?_, fun s t h => ?_, fun tr s t r a h hne => ?_,
    fun s t r h => ?_⟩
  · obtain ⟨i, hi, hexec⟩ := step_eq_next_instrAtPc.1 hstep
    obtain ⟨rs, addr8, rfl, ha⟩ | ⟨x8, y8, color8, rfl, hpixel⟩ | ⟨rx, ry, rc, hx, hy, rfl, hpixel⟩ :=
      exec_changes_cell hexec hne
    · exact .inl ⟨rs, addr8, hi, ha⟩
    · exact .inr (.inl ⟨x8, y8, color8, hi, hpixel⟩)
    · exact .inr (.inr ⟨rx, ry, rc, hx, hy, hi, hpixel⟩)
  · rw [dispatch_fst_of_fault hf]
  · rw [dispatch_of_next h]
  · obtain ⟨-, hserve⟩ := transact_eq_some.1 h
    obtain rfl : (serve tr s).1 = t := congrArg Prod.fst hserve
    exact (serve_changes_cell hne).imp_right fun htr => ⟨htr, htr ▸ rfl⟩
  · obtain ⟨-, htick⟩ := engineMove_eq_some.1 h
    simpa [htick] using runTick_mem s

end Sys2Proof.Machine

/-! PROOFS of the family of spec/60_exceptions.md: which faults an instruction, a fetch and a transaction can raise, and
that a fault is precise. -/

namespace Sys2Proof

/-! ### Only an illegal opcode byte is rejected as one -/

/-- Reading the operands of a legal opcode never rejects the opcode (R55). -/
theorem decodeOperands_ne_illegalOpcode (o : Op) (bs : List Byte) (op : Byte) :
    decodeOperands o bs ≠ .illegalOpcode op := by
  cases o
  case halt => exact Decoded.noConfusion
  case print | jmp => rcases bs with _ | ⟨b1, rest⟩ <;> exact Decoded.noConfusion
  case load | store | jz => rcases bs with _ | ⟨b1, _ | ⟨b2, rest⟩⟩ <;> exact Decoded.noConfusion
  case add | sub | pix | pixr => rcases bs with _ | ⟨b1, _ | ⟨b2, _ | ⟨b3, rest⟩⟩⟩ <;> exact Decoded.noConfusion

/-- R55: the first byte alone decides whether the opcode is illegal. -/
theorem decode_cons_eq_illegalOpcode {b op : Byte} {bs : List Byte} :
    decode (b :: bs) = .illegalOpcode op ↔ op = b ∧ Op.ofByte b = none := by
  cases ho : Op.ofByte b with
  | none => simp [decode_illegal ho, eq_comm]
  | some o => simp [decode_cons ho, decodeOperands_ne_illegalOpcode]

end Sys2Proof

namespace Sys2Proof.Machine

/-! ### The faults of a step -/

/-- R56, R152: the only fault of an instruction is that of one of its register-index operands. -/
theorem exec_fault_regIndex {i : Instr} {s : State} {f : Fault} (h : exec i s = .fault f) :
    ∃ b ∈ i.regOperands, Config.nregs ≤ b.toNat ∧ f = .addressing .regIndex b.toNat := by
  cases i
  case jmp | halt => cases h
  case pix => simp [exec, execPix, finish_eq_fault, bind_eq_error, plot_ne_error] at h
  case load rb _ | store rb _ | print rb | jz rb _ =>
    simp only [exec, execLoad, execStore, execPrint, execJz, finish_eq_fault, bind_eq_error, regOperand_eq_error,
      memWrite_byte, ok_bind, pure_eq_ok, reduceCtorEq, and_false, exists_false, or_false] at h
    exact ⟨rb, by simp [Instr.regOperands], h⟩
  case add r1 r2 r3 | sub r1 r2 r3 | pixr r1 r2 r3 =>
    simp only [exec, execAdd, execSub, arith, execPixr, finish_eq_fault, bind_eq_error, regOperand_eq_error,
      plot_ne_error, pure_eq_ok, reduceCtorEq, and_false, exists_false, or_false] at h
    obtain h | ⟨_, -, h | ⟨_, -, h⟩⟩ := h
    · exact ⟨r1, by simp [Instr.regOperands], h⟩
    · exact ⟨r2, by simp [Instr.regOperands], h⟩
    · exact ⟨r3, by simp [Instr.regOperands], h⟩

/-- A step faults exactly when the fetch does, or the instruction fetched does. -/
theorem step_eq_fault {s : State} {f : Fault} :
    step s = .fault f ↔ fetchInstr s = .error f ∨ ∃ i, fetchInstr s = .ok i ∧ exec i s = .fault f := by
  unfold step
  cases fetchInstr s <;> simp

/-- R122: the fetch raises `DecodeFault` exactly when the window's first byte is an illegal opcode. -/
theorem fetchInstr_eq_decode_fault {s : State} {op : Byte} :
    fetchInstr s = .error (.decode op) ↔ s.pc < Config.memSize ∧ op = s.mem.read s.pc ∧ Op.ofByte op = none := by
  have hdecode : fetchInstr s = .error (.decode op) ↔ decode (fetchWindow s) = .illegalOpcode op := by
    unfold fetchInstr
    cases decode (fetchWindow s) <;> simp
  rw [hdecode]
  obtain hlt | hge := Nat.lt_or_ge s.pc Config.memSize
  · obtain ⟨rest, hw⟩ := fetchWindow_cons hlt
    rw [hw, decode_cons_eq_illegalOpcode]
    simp +contextual [hlt]
  · simp [fetchWindow_of_ge hge, decode, Nat.not_lt.2 hge]

/-- R151: a step raises `DecodeFault` exactly when its fetch does; no instruction raises one. -/
theorem step_eq_decode_fault {s : State} {op : Byte} :
    step s = .fault (.decode op) ↔ s.pc < Config.memSize ∧ op = s.mem.read s.pc ∧ Op.ofByte op = none := by
  rw [step_eq_fault, fetchInstr_eq_decode_fault, or_iff_left]
  rintro ⟨i, -, hexec⟩
  obtain ⟨b, -, -, hf⟩ := exec_fault_regIndex hexec
  cases hf

/-! ### The faults and results of a transaction and of a turn of Run -/

/-- R121: Step is the one transaction whose response is a result, and the result is that of its dispatch. -/
theorem serve_snd_eq_result {tr : Transaction} {s : State} {r : Result} :
    (serve tr s).2 = .result r ↔ tr = .step ∧ (dispatch s).2 = r := by
  cases tr with
  | step => simp [serve]
  | load a v | inspectMem a | inspectReg j =>
    simp only [serve]
    split <;> simp
  | reset | run | inspectPc => simp [serve]

/-- R127, R128: a transaction's own fault, that of a Load or an Inspect, is always an addressing fault. -/
theorem serve_snd_eq_fault {tr : Transaction} {s : State} {f : Fault} (h : (serve tr s).2 = .fault f) :
    ∃ kind value, f = .addressing kind value := by
  cases tr with
  | load a v =>
    obtain hlt | hge := Nat.lt_or_ge a Config.memSize
    · simp [serve, memWrite_of_lt hlt] at h
    · exact ⟨.memAddress, a, by simpa [serve, memWrite_of_ge hge, eq_comm] using h⟩
  | inspectMem a =>
    obtain hlt | hge := Nat.lt_or_ge a Config.memSize
    · simp [serve, memRead_of_lt hlt] at h
    · exact ⟨.memAddress, a, by simpa [serve, memRead_of_ge hge, eq_comm] using h⟩
  | inspectReg j =>
    obtain hlt | hge := Nat.lt_or_ge j Config.nregs
    · simp [serve, regIndex_of_lt hlt] at h
    · exact ⟨.regIndex, j, by simpa [serve, regIndex_of_ge hge, eq_comm] using h⟩
  | reset | step | run | inspectPc => cases h

/-- R156: a turn of Run's loop reports a fault exactly when its step faults, and then only ends the Run. -/
theorem runTick_eq_fault {s t : State} {f : Fault} :
    runTick s = (t, .result (.fault f)) ↔ step s = .fault f ∧ t = s.endRun := by
  cases hs : step s with
  | next u =>
    rw [runTick, dispatch_of_next hs]
    cases s.atHalt <;> simp
  | fault g => simp [runTick, dispatch_of_fault hs, and_comm, eq_comm]
  | refused q => simp [runTick, dispatch_of_refused hs]

/-- Settles O4: the dispatch faults as its step does, a transaction has no such fault of its own, and a Run that reports
one has only ended. -/
theorem decodeFaultExactlyOnIllegalOpcodes : Obligations.DecodeFaultExactlyOnIllegalOpcodes := by
  refine ⟨fun s op => ?_, fun s op h => dispatch_fst_of_fault h, fun tr s t op h => ?_, fun tr s t op h => ?_,
    fun s t op h => ?_⟩
  · rw [dispatch_snd_eq_fault, step_eq_decode_fault, Op.ofByte_eq_none]
  · obtain ⟨-, hserve⟩ := transact_eq_some.1 h
    obtain ⟨kind, value, hf⟩ := serve_snd_eq_fault (congrArg Prod.snd hserve)
    cases hf
  · obtain ⟨-, hserve⟩ := transact_eq_some.1 h
    obtain ⟨rfl, hd⟩ := serve_snd_eq_result.1 (congrArg Prod.snd hserve)
    exact ⟨rfl, (congrArg Prod.fst hserve).symm.trans (dispatch_fst_of_fault hd)⟩
  · obtain ⟨-, htick⟩ := engineMove_eq_some.1 h
    obtain ⟨-, rfl⟩ := runTick_eq_fault.1 htick
    exact ⟨rfl, rfl, rfl, rfl⟩

/-! ### Faults are precise (R156) -/

theorem stepMany_succ_of_ok {s t : State} (h : dispatch s = (t, .ok)) (n : Nat) :
    stepMany (n + 1) s = stepMany n t := by
  simp [stepMany, h]

theorem stepMany_succ_of_ne_ok {s : State} (h : (dispatch s).2 ≠ .ok) (n : Nat) :
    stepMany (n + 1) s = dispatch s := by
  rw [stepMany]
  split
  · next hd => exact absurd (congrArg Prod.snd hd) h
  · next hd => exact hd.symm

/-- Steps that end with a fault have all answered `Ok` up to the state in which the step faults. -/
theorem stepMany_fault {n : Nat} {s t : State} {f : Fault} (h : stepMany n s = (t, .fault f)) :
    ∃ k, k < n ∧ stepMany k s = (t, .ok) ∧ step t = .fault f := by
  induction n generalizing s with
  | zero => cases h
  | succ n ih =>
    by_cases hok : (dispatch s).2 = .ok
    · have hd : dispatch s = ((dispatch s).1, .ok) := Prod.ext rfl hok
      rw [stepMany_succ_of_ok hd] at h
      obtain ⟨k, hk, hmany, hstep⟩ := ih h
      exact ⟨k + 1, Nat.succ_lt_succ hk, by rw [stepMany_succ_of_ok hd, hmany], hstep⟩
    · rw [stepMany_succ_of_ne_ok hok] at h
      have hfault : (dispatch s).2 = .fault f := congrArg Prod.snd h
      obtain rfl : s = t := (dispatch_fst_of_fault hfault).symm.trans (congrArg Prod.fst h)
      exact ⟨0, Nat.succ_pos n, rfl, dispatch_snd_eq_fault.1 hfault⟩

/-- Settles O26: the drivers by what the dispatch answers, the sequence of Steps by induction on its bound. -/
theorem faultsArePrecise : Obligations.FaultsArePrecise := by
  refine ⟨fun s f h => ⟨dispatch_of_fault h, fun hidle => ?_, fun hrun => ?_⟩, fun n s t f => stepMany_fault⟩
  · rw [transact_of_idle hidle, serve, dispatch_of_fault h]
  · exact engineMove_eq_some.2 ⟨hrun, runTick_eq_fault.2 ⟨h, rfl⟩⟩

end Sys2Proof.Machine

/-! PROOFS of the family of spec/70_reset_and_hazards.md: the Reset operation, and that it opens every Run. -/

namespace Sys2Proof.Machine

/-- R130, R181: the opening of a Run differs from the Reset operation in the control state alone. -/
theorem State.startRun_eq_resetCore (s : State) : s.startRun = { s.resetCore with control := .running } := rfl

/-- Settles O8: a Reset in Idle is served by `resetCore`, a Run by `startRun`, which is `resetCore` with the control
state made Running. -/
theorem resetOperationLeavesMemoryUntouched : Obligations.ResetOperationLeavesMemoryUntouched := by
  refine ⟨fun s => ⟨s.getX_resetCore, s.resetCore_pc, s.resetCore_mem⟩, fun s hidle => ?_, fun s hidle => ?_⟩
  · exact transact_of_idle hidle .reset
  · refine ⟨s.startRun, .pending, transact_of_idle hidle .run, ?_⟩
    rw [State.startRun_eq_resetCore]
    exact ⟨rfl, rfl, rfl, rfl⟩

end Sys2Proof.Machine

/-! PROOFS of the statements about the encoding: decoding and encoding agree, and the opcode byte alone fixes the length
(spec/30_encoding.md). -/

namespace Sys2Proof

/-- Settles O1, by the decoder's own characterisation. -/
theorem decodeInvertsEncode : Obligations.DecodeInvertsEncode :=
  fun _ _ _ => decode_eq_instr

/-- Settles O2: each word is the encoding of the instruction beside it. -/
theorem specWordsDecode : Obligations.SpecWordsDecode :=
  ⟨decode_encode (.load 7 255) [], decode_encode (.add 2 0 1) [], decode_encode (.sub 0 0 1) [],
    decode_encode (.store 0 0x20) [], decode_encode (.print 2) [], decode_encode (.jz 3 29) [],
    decode_encode (.jmp 12) [], decode_encode (.pix 2 3 7) [], decode_encode (.pixr 0 1 2) [],
    decode_encode .halt []⟩

/-! ### The length of an instruction (R57) -/

theorem encode_length (i : Instr) : (encode i).length = i.op.format.length := by
  cases i <;> rfl

theorem lengthOf_eq_some {b : Byte} {n : Nat} :
    lengthOf b = some n ↔ ∃ o, Op.ofByte b = some o ∧ o.format.length = n := by
  simp [lengthOf]

theorem lengthOf_eq_none {b : Byte} : lengthOf b = none ↔ Op.ofByte b = none := by
  simp [lengthOf]

/-- R57, R59: reading the operands of a legal opcode answers an instruction where there are as many bytes as the
opcode's length, and otherwise that one is missing. -/
theorem decodeOperands_by_length (o : Op) (bs : List Byte) :
    (bs.length + 1 < o.format.length ∧ decodeOperands o bs = .missingOperand) ∨
    (o.format.length ≤ bs.length + 1 ∧ ∃ i rest, decodeOperands o bs = .instr i rest) := by
  cases o
  case halt => exact .inr ⟨Nat.succ_pos _, _, _, rfl⟩
  case print | jmp =>
    obtain _ | ⟨b1, rest⟩ := bs
    · exact .inl ⟨Nat.lt_succ_self _, rfl⟩
    · exact .inr ⟨Nat.le_add_left _ _, _, _, rfl⟩
  case load | store | jz =>
    obtain _ | ⟨b1, _ | ⟨b2, rest⟩⟩ := bs
    · exact .inl ⟨by decide, rfl⟩
    · exact .inl ⟨Nat.lt_succ_self _, rfl⟩
    · exact .inr ⟨Nat.le_add_left _ _, _, _, rfl⟩
  case add | sub | pix | pixr =>
    obtain _ | ⟨b1, _ | ⟨b2, _ | ⟨b3, rest⟩⟩⟩ := bs
    · exact .inl ⟨by decide, rfl⟩
    · exact .inl ⟨(by decide : 2 < 4), rfl⟩
    · exact .inl ⟨Nat.lt_succ_self _, rfl⟩
    · exact .inr ⟨Nat.le_add_left _ _, _, _, rfl⟩

theorem decodeOperands_of_short {o : Op} {bs : List Byte} (h : bs.length + 1 < o.format.length) :
    decodeOperands o bs = .missingOperand :=
  (decodeOperands_by_length o bs).elim And.right fun hlong => absurd h (Nat.not_lt.2 hlong.1)

theorem decodeOperands_of_long {o : Op} {bs : List Byte} (h : o.format.length ≤ bs.length + 1) :
    ∃ i rest, decodeOperands o bs = .instr i rest :=
  (decodeOperands_by_length o bs).elim (fun hshort => absurd hshort.1 (Nat.not_lt.2 h)) And.right

/-- R57: the values of the table, over the 256 opcode bytes. -/
theorem lengthOf_table (op : Byte) : lengthOf op =
    if op.toNat = 255 then some 1
    else if op.toNat = 5 ∨ op.toNat = 7 then some 2
    else if op.toNat = 1 ∨ op.toNat = 4 ∨ op.toNat = 6 then some 3
    else if op.toNat = 2 ∨ op.toNat = 3 ∨ op.toNat = 8 ∨ op.toNat = 9 then some 4
    else none := by
  revert op
  decide

/-- Settles O3: the table byte by byte, the bytes decoded as those of an instruction and a rest. -/
theorem lengthIsFixedByTheOpcode : Obligations.LengthIsFixedByTheOpcode := by
  refine ⟨lengthOf_table, fun op bytes rest i h => ?_, fun op bytes h => ?_, fun op bytes n h hshort => ?_⟩
  · have hbytes : op :: bytes = encode i ++ rest := decode_eq_instr.1 h
    obtain ⟨rfl, -⟩ := List.cons.inj hbytes
    refine ⟨i.op.format.length, lengthOf_eq_some.2 ⟨i.op, Op.ofByte_toByte i.op, rfl⟩, ?_⟩
    rw [hbytes, List.length_append, encode_length]
  · exact decode_illegal (lengthOf_eq_none.1 h) bytes
  · obtain ⟨o, ho, rfl⟩ := lengthOf_eq_some.1 h
    rw [decode_cons ho, decodeOperands_of_short hshort]

end Sys2Proof

/-! PROOFS of the statements about memory as data: the framebuffer addresses, and the canonical form (spec/20_memory.md,
spec/44_framebuffer.md). -/

namespace Sys2Proof.Machine

/-- Settles O5: row and column are quotient and remainder of the offset into the framebuffer by its width. -/
theorem framebufferAddressIsABijection : Obligations.FramebufferAddressIsABijection := by
  refine ⟨fun x y hx hy => ⟨le_fbAddress x y, fbAddress_lt hx hy⟩, fun x y x' y' hx hy hx' hy' h => ?_,
    fun a hlo hhi => ⟨(a - 1024) % 32, (a - 1024) / 32, by omega, by omega, ?_⟩⟩
  · simp only [fbAddress, Config.framebufferStart, Config.fbW] at h
    omega
  · simp only [fbAddress, Config.framebufferStart, Config.fbW]
    omega

namespace Memory

/-- An address that no entry names reads as unlisted. -/
theorem read_of_forall_ne {m : Memory} {a : Nat} (h : ∀ c ∈ m, c.1 ≠ a) : m.read a = Memory.unlisted := by
  induction m with
  | nil => rfl
  | cons c m ih =>
    obtain ⟨hc, hm⟩ := List.forall_mem_cons.1 h
    rw [read_cons, if_neg hc, ih hm]

theorem read_head (a : Nat) (v : Byte) (m : Memory) : Memory.read ((a, v) :: m) a = v := if_pos rfl

theorem wf_cons {c : Host.Cell} {m : Memory} (h : Memory.wf (c :: m)) :
    (∀ d ∈ m, c.1 < d.1) ∧ c.1 < Config.memSize ∧ c.2 ≠ Memory.unlisted ∧ m.wf := by
  obtain ⟨hrising, hcells⟩ := h
  obtain ⟨hhead, htail⟩ := List.pairwise_cons.1 hrising
  obtain ⟨⟨hlt, hne⟩, hrest⟩ := List.forall_mem_cons.1 hcells
  exact ⟨hhead, hlt, hne, htail, hrest⟩

/-- In canonical form an address below the first entry is unlisted. -/
theorem read_of_lt_head {c : Host.Cell} {m : Memory} {a : Nat} (h : Memory.wf (c :: m)) (ha : a < c.1) :
    Memory.read (c :: m) a = Memory.unlisted := by
  obtain ⟨hhead, -⟩ := wf_cons h
  refine read_of_forall_ne (List.forall_mem_cons.2 ⟨Nat.ne_of_gt ha, fun d hd => ?_⟩)
  exact Nat.ne_of_gt (Nat.lt_trans ha (hhead d hd))

/-- In canonical form the first address listed is the least one that does not read as unlisted, so two memories that
read the same agree in it. -/
theorem head_le_of_read_eq {c d : Host.Cell} {m n : Memory} (hm : Memory.wf (c :: m)) (hn : Memory.wf (d :: n))
    (h : ∀ a, a < 2048 → Memory.read (c :: m) a = Memory.read (d :: n) a) : d.1 ≤ c.1 := by
  obtain ⟨-, hlt, hne, -⟩ := wf_cons hm
  by_contra hcd
  apply hne
  rw [← read_of_lt_head hn (Nat.lt_of_not_le hcd), ← h c.1 hlt, read_head]

/-- Two canonical memories that read the same in the array are equal, entry by entry. -/
theorem eq_of_read_eq {m n : Memory} (hm : m.wf) (hn : n.wf) (h : ∀ a, a < 2048 → m.read a = n.read a) : m = n := by
  induction m generalizing n with
  | nil =>
    cases n with
    | nil => rfl
    | cons d n =>
      obtain ⟨-, hlt, hne, -⟩ := wf_cons hn
      exact absurd ((read_head d.1 d.2 n).symm.trans (h d.1 hlt).symm) hne
  | cons c m ih =>
    cases n with
    | nil =>
      obtain ⟨-, hlt, hne, -⟩ := wf_cons hm
      exact absurd ((read_head c.1 c.2 m).symm.trans (h c.1 hlt)) hne
    | cons d n =>
      have haddr : c.1 = d.1 :=
        Nat.le_antisymm (head_le_of_read_eq hn hm fun a ha => (h a ha).symm) (head_le_of_read_eq hm hn h)
      obtain ⟨a, v⟩ := c
      obtain ⟨b, w⟩ := d
      obtain rfl : a = b := haddr
      obtain ⟨hmhead, hlt, -, hmwf⟩ := wf_cons hm
      obtain ⟨hnhead, -, -, hnwf⟩ := wf_cons hn
      have hvalue : v = w := by simpa only [read_head] using h a hlt
      rw [hvalue, ih hmwf hnwf fun e he => ?_]
      by_cases hea : a = e
      · rw [← hea, read_of_forall_ne fun c hc => Nat.ne_of_gt (hmhead c hc),
          read_of_forall_ne fun c hc => Nat.ne_of_gt (hnhead c hc)]
      · simpa only [read_cons, if_neg hea] using h e he

end Memory

/-- Settles O6, by induction on both lists. -/
theorem canonicalMemoriesAreDeterminedByTheirReads : Obligations.CanonicalMemoriesAreDeterminedByTheirReads :=
  fun _ _ => Memory.eq_of_read_eq

end Sys2Proof.Machine

/-! PROOFS of the statements about when an instruction completes and when it faults (spec/60_exceptions.md). -/

namespace Sys2Proof.Machine

/-! ### Refusals and register operands -/

/-- R159, R160: every instruction has a meaning. -/
theorem exec_ne_refused (i : Instr) (s : State) (q : Refusal) : exec i s ≠ .refused q := by
  cases i with
  | jmp | halt => nofun
  | load | add | sub | store | print | jz | pix | pixr => exact finish_ne_refused _ q

theorem step_ne_refused (s : State) (q : Refusal) : step s ≠ .refused q := by
  cases h : fetchInstr s with
  | ok i =>
    rw [step_of_fetch h]
    exact exec_ne_refused i s q
  | error f =>
    rw [step_of_fault h]
    nofun

/-- Settles O25: the fetch answers an instruction, which is not refused, or a fault. -/
theorem noStepIsRefused : Obligations.NoStepIsRefused := step_ne_refused

/-- The first register operand of 8 or more in a list. -/
abbrev firstBad (rs : List Byte) : Option Byte := rs.find? fun c => decide (8 ≤ c.toNat)

/-- R155: where the operands are checked in list order, the first bad one is reported if it is the head, or else by what
follows the check of the head. -/
theorem regOperand_bind_of_firstBad {α : Type} {r b : Byte} {rs : List Byte} {k : Fin Config.nregs → Except Fault α}
    (h : firstBad (r :: rs) = some b) (hk : firstBad rs = some b → ∀ d, k d = .error (.addressing .regIndex b.toNat)) :
    (regOperand r >>= k) = .error (.addressing .regIndex b.toNat) := by
  obtain hlt | hge := Nat.lt_or_ge r.toNat Config.nregs
  · rw [regOperand_of_lt hlt, ok_bind]
    exact hk (by simpa [firstBad, Nat.not_le.2 hlt] using h) _
  · obtain rfl : r = b := by simpa [firstBad, hge] using h
    rw [regOperand_of_ge hge, error_bind]

theorem firstBad_nil_ne {b : Byte} : firstBad [] ≠ some b := nofun

/-- R12, R56, R155: an instruction checks its register operands in memory order and reports the first bad one. -/
theorem exec_of_firstBad {i : Instr} {b : Byte} (h : firstBad i.regOperands = some b) (s : State) :
    exec i s = .fault (.addressing .regIndex b.toNat) := by
  cases i with
  | jmp | pix | halt => exact absurd h firstBad_nil_ne
  | load | store | print | jz =>
    exact finish_eq_fault.2 (regOperand_bind_of_firstBad h fun h => absurd h firstBad_nil_ne)
  | add | sub | pixr =>
    exact finish_eq_fault.2 (regOperand_bind_of_firstBad h fun h _ => regOperand_bind_of_firstBad h fun h _ =>
      regOperand_bind_of_firstBad h fun h => absurd h firstBad_nil_ne)

/-- Settles O21, by the order in which each instruction checks its operands. -/
theorem firstBadRegisterIndexIsReported : Obligations.FirstBadRegisterIndexIsReported :=
  fun _ s _ h => exec_of_firstBad h s

/-- R56, R159: an instruction completes exactly when none of its register operands is bad: a bad one has a first, which
is reported, and a fault of an instruction is that of a bad operand. -/
theorem exec_completes_iff (i : Instr) (s : State) :
    (∃ t, exec i s = .next t) ↔ ∀ b ∈ i.regOperands, b.toNat < 8 := by
  constructor
  · rintro ⟨t, ht⟩ b hb
    by_contra hge
    have hbad : (firstBad i.regOperands).isSome := List.find?_isSome.2 ⟨b, hb, decide_eq_true (Nat.le_of_not_lt hge)⟩
    obtain ⟨c, hc⟩ := Option.isSome_iff_exists.1 hbad
    rw [exec_of_firstBad hc] at ht
    cases ht
  · intro hvalid
    cases h : exec i s with
    | next t => exact ⟨t, rfl⟩
    | fault f =>
      obtain ⟨b, hb, hge, -⟩ := exec_fault_regIndex h
      exact absurd (hvalid b hb) (Nat.not_lt.2 hge)
    | refused q => exact absurd h (exec_ne_refused i s q)

/-- Settles O20, by the two ways in which the operands decide. -/
theorem instructionsCompleteExactlyWhenWellFormed : Obligations.InstructionsCompleteExactlyWhenWellFormed :=
  exec_completes_iff

/-! ### The faults of the fetch -/

theorem fetchInstr_of_ge {s : State} (h : Config.memSize ≤ s.pc) :
    fetchInstr s = .error (.addressing .pcOutOfRange s.pc) := by
  rw [fetchInstr, fetchWindow_of_ge h]
  rfl

theorem fetchInstr_of_illegal {s : State} (h : s.pc < Config.memSize) (ho : Op.ofByte (s.mem.read s.pc) = none) :
    fetchInstr s = .error (.decode (s.mem.read s.pc)) :=
  fetchInstr_eq_decode_fault.2 ⟨h, rfl, ho⟩

/-- Below the end of memory the bytes after the opcode byte are those the window has room for. -/
theorem fetchWindow_cons_length {s : State} (h : s.pc < Config.memSize) :
    ∃ rest, fetchWindow s = s.mem.read s.pc :: rest ∧
      rest.length + 1 = min Config.maxInstrBytes (Config.memSize - s.pc) := by
  obtain ⟨rest, hw⟩ := fetchWindow_cons h
  exact ⟨rest, hw, by rw [← fetchWindow_length, hw, List.length_cons]⟩

theorem length_le_maxInstrBytes (f : Format) : f.length ≤ Config.maxInstrBytes := by
  cases f <;> decide

/-- R59: a legal opcode whose last operand byte lies beyond the array is an `OperandFetch` fault. -/
theorem fetchInstr_of_cut {s : State} {o : Op} (h : s.pc < Config.memSize) (ho : Op.ofByte (s.mem.read s.pc) = some o)
    (hcut : Config.memSize < s.pc + o.format.length) :
    fetchInstr s = .error (.addressing .operandFetch Config.memSize) := by
  obtain ⟨rest, hw, hlen⟩ := fetchWindow_cons_length h
  have hshort : rest.length + 1 < o.format.length := by omega
  rw [fetchInstr, hw, decode_cons ho, decodeOperands_of_short hshort]
  rfl

/-- R122: a legal opcode all of whose operand bytes lie in the array is an instruction of that opcode at the program
counter. -/
theorem instrAtPc_of_fits {s : State} {o : Op} (h : s.pc < Config.memSize)
    (ho : Op.ofByte (s.mem.read s.pc) = some o) (hfits : s.pc + o.format.length ≤ Config.memSize) :
    ∃ i, i.op = o ∧ InstrAtPc i s := by
  obtain ⟨rest, hw, hlen⟩ := fetchWindow_cons_length h
  have hmax := length_le_maxInstrBytes o.format
  obtain ⟨i, tail, hd⟩ := decodeOperands_of_long (o := o) (bs := rest) (by omega)
  refine ⟨i, (operands_of_decodeOperands hd).1, instrAtPc_of_fetchWindow (rest := tail) ?_⟩
  rw [hw, ← decode_eq_instr, decode_cons ho, hd]

/-- Settles O23: the dispatch faults as its fetch does. -/
theorem fetchBeyondTheArrayFaults : Obligations.FetchBeyondTheArrayFaults := by
  refine ⟨fun s h => ?_, fun s n h hlen hcut => ?_⟩
  · exact dispatch_of_fault (step_of_fault (fetchInstr_of_ge h))
  · obtain ⟨o, ho, rfl⟩ := lengthOf_eq_some.1 hlen
    exact dispatch_of_fault (step_of_fault (fetchInstr_of_cut h ho hcut))

/-- Settles O22, by the fetch of the instruction at the program counter. -/
theorem stepExecutesTheInstructionAtThePc : Obligations.StepExecutesTheInstructionAtThePc :=
  ⟨fun _ _ => step_of_instrAtPc, fun _ _ => step_eq_next_instrAtPc.1⟩

/-! ### The faults of a step -/

/-- R50: the bytes at the program counter are those of the instruction's encoding, one by one. -/
theorem InstrAtPc.encode_getElem {i : Instr} {s : State} (h : InstrAtPc i s) {k : Nat} (hk : k < (encode i).length) :
    (encode i)[k] = s.mem.read (s.pc + k) := by
  obtain ⟨-, hbytes⟩ := h
  exact (List.getElem_of_eq hbytes.symm hk).trans (by simp only [List.getElem_map, List.getElem_range])

theorem regOperands_subset_operands (i : Instr) : i.regOperands ⊆ i.operands := by
  cases i <;> simp [Instr.regOperands, Instr.operands]

/-- An operand of the instruction at the program counter is one of the three bytes after it, in the array. -/
theorem InstrAtPc.operand_eq_read {i : Instr} {s : State} (h : InstrAtPc i s) {b : Byte} (hb : b ∈ i.operands) :
    ∃ k, 1 ≤ k ∧ k ≤ 3 ∧ s.pc + k < Config.memSize ∧ b = s.mem.read (s.pc + k) := by
  obtain ⟨k, hk, rfl⟩ := List.getElem_of_mem hb
  have hlen : k + 1 < (encode i).length := Nat.succ_lt_succ hk
  have hread : i.operands[k] = s.mem.read (s.pc + (k + 1)) := h.encode_getElem hlen
  have hmax : (encode i).length ≤ 4 := encode_length_le i
  obtain ⟨hfits, -⟩ := h
  exact ⟨k + 1, Nat.le_add_left 1 k, by omega, by omega, hread⟩

/-- What the fetch answers, by the range of the program counter, the opcode byte and the range of its operands. -/
theorem fetchInstr_cases (s : State) :
    (Config.memSize ≤ s.pc ∧ fetchInstr s = .error (.addressing .pcOutOfRange s.pc)) ∨
    (s.pc < Config.memSize ∧ Op.ofByte (s.mem.read s.pc) = none ∧
      fetchInstr s = .error (.decode (s.mem.read s.pc))) ∨
    (s.pc < Config.memSize ∧ ∃ o, Op.ofByte (s.mem.read s.pc) = some o ∧
      ((Config.memSize < s.pc + o.format.length ∧
        fetchInstr s = .error (.addressing .operandFetch Config.memSize)) ∨
      (s.pc + o.format.length ≤ Config.memSize ∧ ∃ i, i.op = o ∧ InstrAtPc i s))) := by
  obtain hlt | hge := Nat.lt_or_ge s.pc Config.memSize
  · cases ho : Op.ofByte (s.mem.read s.pc) with
    | none => exact .inr (.inl ⟨hlt, rfl, fetchInstr_of_illegal hlt ho⟩)
    | some o =>
      refine .inr (.inr ⟨hlt, o, rfl, ?_⟩)
      obtain hcut | hfits := Nat.lt_or_ge Config.memSize (s.pc + o.format.length)
      · exact .inl ⟨hcut, fetchInstr_of_cut hlt ho hcut⟩
      · exact .inr ⟨hfits, instrAtPc_of_fits hlt ho hfits⟩
  · exact .inl ⟨hge, fetchInstr_of_ge hge⟩

/-- R152: a fault of an instruction at the program counter is that of one of the three bytes after it. -/
theorem InstrAtPc.exec_fault {i : Instr} {s : State} {f : Fault} (hi : InstrAtPc i s) (h : exec i s = .fault f) :
    ∃ k v : Nat, f = .addressing .regIndex v ∧ 1 ≤ k ∧ k ≤ 3 ∧ s.pc + k < 2048 ∧
      v = (s.mem.read (s.pc + k)).toNat ∧ 8 ≤ v ∧ v ≤ 255 := by
  obtain ⟨b, hb, hge, rfl⟩ := exec_fault_regIndex h
  obtain ⟨k, hlo, hhi, harray, hread⟩ := hi.operand_eq_read (regOperands_subset_operands i hb)
  exact ⟨k, b.toNat, rfl, hlo, hhi, harray, congrArg BitVec.toNat hread, hge, Nat.le_of_lt_succ b.isLt⟩

/-- Settles O24: the first three forms are the faults of the fetch, the last is that of the instruction. -/
theorem stepFaultsAreThoseListed : Obligations.StepFaultsAreThoseListed := by
  intro s f hpc h
  obtain ⟨hge, hf⟩ | ⟨hlt, hnone, hf⟩ | ⟨hlt, o, -, ⟨hcut, hf⟩ | ⟨-, i, -, hi⟩⟩ := fetchInstr_cases s
  · obtain rfl : _ = f := Host.Outcome.fault.inj ((step_of_fault hf).symm.trans h)
    have heq : s.pc = 2048 := Nat.le_antisymm hpc hge
    exact .inr (.inl ⟨by rw [heq], heq⟩)
  · obtain rfl : _ = f := Host.Outcome.fault.inj ((step_of_fault hf).symm.trans h)
    exact .inl ⟨rfl, hlt, lengthOf_eq_none.2 hnone⟩
  · obtain rfl : _ = f := Host.Outcome.fault.inj ((step_of_fault hf).symm.trans h)
    have hmax : o.format.length ≤ 4 := length_le_maxInstrBytes o.format
    have hend : 2048 < s.pc + o.format.length := hcut
    exact .inr (.inr (.inl ⟨rfl, by omega, hlt⟩))
  · rw [step_of_instrAtPc hi] at h
    exact .inr (.inr (.inr (hi.exec_fault h)))

end Sys2Proof.Machine

/-! PROOFS of the statements about what an instruction can do: the effect of each as data, what a step does, and
the invariant (spec/10_state.md, spec/20_memory.md). -/

namespace Sys2Proof.Machine

/-! ### The effect of an instruction as data -/

/-- What an instruction that completes does: where it leaves the program counter, and the register, the cell, the value
emitted and the end of a Run, each where there is one. -/
structure Effect where
  pc : Nat
  reg : Option (Fin Config.nregs × Word) := none
  cell : Option (Nat × Byte) := none
  emitted : Option Word := none
  endsRun : Bool := false

/-- The state with an effect carried out. -/
def Effect.apply (e : Effect) (s : State) : State where
  mem := match e.cell with
    | some (a, v) => s.mem.write a v
    | none => s.mem
  x := match e.reg with
    | some (d, v) => s.x.set d v
    | none => s.x
  pc := e.pc
  control := if e.endsRun then .idle else s.control
  out := match e.emitted with
    | some v => s.out ++ [v]
    | none => s.out

/-- R13: two states in which an instruction reads the same. -/
structure SameReads (i : Instr) (s u : State) : Prop where
  pc : u.pc = s.pc
  reg : ∀ b ∈ i.regsRead, ∀ r : Fin Config.nregs, r.val = b.toNat → u.getX r = s.getX r

/-- What an effect of a given instruction can be: the register is the destination, the cell lies in the array, only
PRINT emits, only HALT ends a Run (R13, R46, R90, R97). -/
structure EffectOf (i : Instr) (e : Effect) : Prop where
  reg : e.reg.map (fun w => w.1.val) = i.regWritten.map (fun b => b.toNat) := by rfl
  cell : ∀ w ∈ e.cell, w.1 < Config.memSize := by nofun
  emitted : i.op ≠ .print → e.emitted = none := by exact fun _ => rfl
  endsRun : e.endsRun = decide (i = .halt) := by rfl

theorem byte_lt_memSize (b : Byte) : b.toNat < Config.memSize := Nat.lt_of_lt_of_le b.isLt (by decide)

/-- Plotting is the write of one cell of the array, or nothing, whatever the state. -/
theorem plot_eq_effect (xv yv : Nat) (c : Byte) : ∃ cell : Option (Nat × Byte),
    (∀ w ∈ cell, w.1 < Config.memSize) ∧
    ∀ s : State, plot xv yv c s = .ok (Effect.apply { pc := s.pc, cell := cell } s) := by
  by_cases h : xv < Config.fbW ∧ yv < Config.fbH
  · obtain ⟨hx, hy⟩ := h
    refine ⟨some (fbAddress xv yv, c), ?_, fun s => plot_on_screen hx hy c s⟩
    rintro _ ⟨⟩
    exact fbAddress_lt hx hy
  · exact ⟨none, nofun, fun s => plot_off_screen h c s⟩

theorem arith_effect {f : Word → Word → Word} {rd rs1 rs2 : Byte} {s t : State} (h : arith f rd rs1 rs2 s = .next t) :
    ∃ d : Fin Config.nregs, d.val = rd.toNat ∧ ∃ v,
      t = Effect.apply { pc := s.pc + 4, reg := some (d, v) } s ∧
      ∀ u, u.pc = s.pc → (∀ b ∈ [rs1, rs2], ∀ r : Fin Config.nregs, r.val = b.toNat → u.getX r = s.getX r) →
        arith f rd rs1 rs2 u = .next (Effect.apply { pc := s.pc + 4, reg := some (d, v) } u) := by
  obtain ⟨d, hd, a, ha, b, hb, rfl⟩ := arith_eq_next.1 h
  refine ⟨d, hd, f (s.getX a) (s.getX b), rfl, fun u hpc hreg => arith_eq_next.2 ⟨d, hd, a, ha, b, hb, ?_⟩⟩
  rw [← hreg rs1 (by simp) a ha, ← hreg rs2 (by simp) b hb, ← hpc]
  rfl

/-- An instruction that completes carries out one effect of its own kind, and the same effect in every state in which it
reads the same. -/
theorem exec_effect {i : Instr} {s t : State} (h : exec i s = .next t) :
    ∃ e : Effect, EffectOf i e ∧ t = e.apply s ∧ ∀ u, SameReads i s u → exec i u = .next (e.apply u) := by
  cases i with
  | load rd imm8 =>
    obtain ⟨d, hd, rfl⟩ := exec_load_eq_next.1 h
    refine ⟨{ pc := s.pc + 3, reg := some (d, zextByte imm8) }, { reg := congrArg some hd }, rfl, fun u hu => ?_⟩
    exact exec_load_eq_next.2 ⟨d, hd, by rw [← hu.pc]; rfl⟩
  | add rd rs1 rs2 | sub rd rs1 rs2 =>
    obtain ⟨d, hd, v, rfl, hu⟩ := arith_effect h
    exact ⟨{ pc := s.pc + 4, reg := some (d, v) }, { reg := congrArg some hd }, rfl, fun u hr => hu u hr.pc hr.reg⟩
  | store rs addr8 =>
    obtain ⟨r, hr, rfl⟩ := exec_store_eq_next.1 h
    refine ⟨{ pc := s.pc + 3, cell := some (addr8.toNat, lowByte (s.getX r)) }, { cell := ?_ }, rfl, fun u hu => ?_⟩
    · rintro _ ⟨⟩
      exact byte_lt_memSize addr8
    · refine exec_store_eq_next.2 ⟨r, hr, ?_⟩
      rw [← hu.pc, ← hu.reg rs (by simp [Instr.regsRead]) r hr]
      rfl
  | print rs =>
    obtain ⟨r, hr, rfl⟩ := exec_print_eq_next.1 h
    refine ⟨{ pc := s.pc + 2, emitted := some (s.getX r) }, { emitted := fun hop => absurd rfl hop }, rfl,
      fun u hu => exec_print_eq_next.2 ⟨r, hr, ?_⟩⟩
    rw [← hu.pc, ← hu.reg rs (by simp [Instr.regsRead]) r hr]
    rfl
  | jz rs addr8 =>
    obtain ⟨r, hr, rfl⟩ := exec_jz_eq_next.1 h
    refine ⟨{ pc := if s.getX r = 0 then addr8.toNat else s.pc + 3 }, {}, ?_, fun u hu =>
      exec_jz_eq_next.2 ⟨r, hr, ?_⟩⟩
    · split <;> rfl
    · rw [← hu.pc, ← hu.reg rs (by simp [Instr.regsRead]) r hr]
      split <;> rfl
  | jmp addr8 =>
    obtain rfl := exec_jmp_eq_next.1 h
    exact ⟨{ pc := addr8.toNat }, {}, rfl, fun u _ => exec_jmp_eq_next.2 rfl⟩
  | pix x8 y8 color8 =>
    obtain ⟨u, hu, rfl⟩ := exec_pix_eq_next.1 h
    obtain ⟨cell, hcell, hplot⟩ := plot_eq_effect x8.toNat y8.toNat color8
    obtain rfl := Except.ok.inj ((hplot s).symm.trans hu)
    refine ⟨{ pc := s.pc + 4, cell := cell }, { cell := hcell }, rfl, fun u hu => ?_⟩
    exact exec_pix_eq_next.2 ⟨_, hplot u, by rw [← hu.pc]; rfl⟩
  | pixr rx ry rc =>
    obtain ⟨i, hi, j, hj, k, hk, u, hu, rfl⟩ := exec_pixr_eq_next.1 h
    obtain ⟨cell, hcell, hplot⟩ := plot_eq_effect (s.getX i).toNat (s.getX j).toNat (lowByte (s.getX k))
    obtain rfl := Except.ok.inj ((hplot s).symm.trans hu)
    refine ⟨{ pc := s.pc + 4, cell := cell }, { cell := hcell }, rfl, fun u hu => ?_⟩
    have hplotu := hplot u
    rw [← hu.reg rx (by simp [Instr.regsRead]) i hi, ← hu.reg ry (by simp [Instr.regsRead]) j hj,
      ← hu.reg rc (by simp [Instr.regsRead]) k hk] at hplotu
    exact exec_pixr_eq_next.2 ⟨i, hi, j, hj, k, hk, _, hplotu, by rw [← hu.pc]; rfl⟩
  | halt =>
    obtain rfl := exec_halt_eq_next.1 h
    exact ⟨{ pc := s.pc, endsRun := true }, {}, rfl, fun u hu => exec_halt_eq_next.2 (by rw [← hu.pc]; rfl)⟩

/-! ### What carrying out an effect does -/

@[simp] theorem Effect.apply_pc (e : Effect) (s : State) : (e.apply s).pc = e.pc := rfl

@[simp] theorem Effect.apply_control (e : Effect) (s : State) :
    (e.apply s).control = if e.endsRun then .idle else s.control := rfl

theorem Effect.apply_out (e : Effect) (s : State) : (e.apply s).out = s.out ++ e.emitted.toList := by
  unfold Effect.apply
  cases e.emitted <;> simp

theorem Effect.apply_getX_of_ne {e : Effect} {j : Fin Config.nregs} (h : ∀ v, e.reg ≠ some (j, v)) (s : State) :
    (e.apply s).getX j = s.getX j := by
  cases hr : e.reg with
  | none => simp [Effect.apply, hr, State.getX_eq]
  | some w =>
    obtain ⟨d, v⟩ := w
    have hne : j ≠ d := fun hjd => h v (hjd ▸ hr)
    simpa [Effect.apply, hr, State.getX_eq] using State.getX_setX_ne s hne v

theorem Effect.apply_getX_same {e : Effect} {j : Fin Config.nregs} {v : Word} (h : e.reg = some (j, v)) (s : State) :
    (e.apply s).getX j = v := by
  simp [Effect.apply, h]

theorem Effect.apply_getX_congr {s u : State} {j : Fin Config.nregs} (h : u.getX j = s.getX j) (e : Effect) :
    (e.apply u).getX j = (e.apply s).getX j := by
  by_cases hr : ∃ v, e.reg = some (j, v)
  · obtain ⟨v, hv⟩ := hr
    rw [apply_getX_same hv, apply_getX_same hv]
  · have hne : ∀ v, e.reg ≠ some (j, v) := not_exists.1 hr
    rw [apply_getX_of_ne hne, apply_getX_of_ne hne, h]

theorem Effect.apply_read_congr {s u : State} {a : Nat} (h : u.mem.read a = s.mem.read a) (e : Effect) :
    (e.apply u).mem.read a = (e.apply s).mem.read a := by
  unfold Effect.apply
  cases e.cell <;> simp [h]

theorem Effect.apply_x_congr {s u : State} (h : u.x = s.x) (e : Effect) : (e.apply u).x = (e.apply s).x := by
  simp only [Effect.apply, h]

theorem EffectOf.apply_mem_wf {i : Instr} {e : Effect} (h : EffectOf i e) {s : State} (hs : s.mem.wf) :
    (e.apply s).mem.wf := by
  cases hc : e.cell with
  | none => simpa only [Effect.apply, hc] using hs
  | some w => simpa only [Effect.apply, hc] using Memory.wf_write hs (h.cell w hc) w.2

/-- R13: a register that is not the destination keeps its value. -/
theorem EffectOf.apply_getX_of_not_written {i : Instr} {e : Effect} (h : EffectOf i e) {j : Fin Config.nregs}
    (hj : ∀ rd, i.regWritten = some rd → rd.toNat ≠ j.val) (s : State) : (e.apply s).getX j = s.getX j := by
  refine Effect.apply_getX_of_ne (fun v hv => ?_) s
  have hreg := h.reg
  rw [hv, Option.map_some] at hreg
  obtain ⟨rd, hrd, hval⟩ := Option.map_eq_some_iff.1 hreg.symm
  exact hj rd hrd hval

/-- R13: what the destination holds afterwards does not depend on the state. -/
theorem EffectOf.apply_getX_dest {i : Instr} {e : Effect} (h : EffectOf i e) {j : Fin Config.nregs} {rd : Byte}
    (hrd : i.regWritten = some rd) (hj : rd.toNat = j.val) (s u : State) : (e.apply u).getX j = (e.apply s).getX j := by
  have hreg := h.reg
  rw [hrd, Option.map_some] at hreg
  obtain ⟨⟨d, v⟩, hv, hd⟩ := Option.map_eq_some_iff.1 hreg
  obtain rfl : d = j := Fin.ext (hd.trans hj)
  rw [Effect.apply_getX_same hv, Effect.apply_getX_same hv]

/-! ### What a step does -/

/-- A step that answers a next state carries out one effect of the instruction at the program counter, and a state that
fetches the same instruction and has the same registers takes the same step. -/
theorem step_effect {s t : State} (h : step s = .next t) : ∃ i e, InstrAtPc i s ∧ EffectOf i e ∧ t = e.apply s ∧
    ∀ u, fetchInstr u = fetchInstr s → u.pc = s.pc → u.x = s.x → step u = .next (e.apply u) := by
  obtain ⟨i, hi, hexec⟩ := step_eq_next_instrAtPc.1 h
  obtain ⟨e, he, ht, hsame⟩ := exec_effect hexec
  refine ⟨i, e, hi, he, ht, fun u hfetch hpc hx => ?_⟩
  rw [step_of_fetch (hfetch.trans (fetchInstr_of_instrAtPc hi))]
  exact hsame u ⟨hpc, fun _ _ r _ => State.getX_congr hx r⟩

/-- The fault of a step is decided by the fetch: by its own fault, or by the operands of the instruction fetched. -/
theorem step_fault_congr {s u : State} {f : Fault} (hfetch : fetchInstr u = fetchInstr s) (h : step s = .fault f) :
    step u = .fault f := by
  obtain hf | ⟨i, hi, hexec⟩ := step_eq_fault.1 h
  · exact step_of_fault (hfetch.trans hf)
  · rw [step_of_fetch (hfetch.trans hi), exec_fault_congr hexec]

/-! ### The invariant -/

/-- R16: the instruction at the program counter lies in the array and a jump leads to one of the first 256 cells, so an
instruction leaves the program counter at most at the end of memory. -/
theorem InstrAtPc.exec_pc_le {i : Instr} {s t : State} (hi : InstrAtPc i s) (h : exec i s = .next t) :
    t.pc ≤ Config.pcMax := by
  obtain ⟨hfits, -⟩ := hi
  rw [encode_length] at hfits
  cases i with
  | jz rs addr8 =>
    obtain ⟨r, -, rfl⟩ := exec_jz_eq_next.1 h
    split
    · exact Nat.le_of_lt (byte_lt_memSize addr8)
    · exact hfits
  | jmp addr8 =>
    rw [exec_jmp_pc h]
    exact Nat.le_of_lt (byte_lt_memSize addr8)
  | halt =>
    rw [exec_halt_pc h]
    exact Nat.le_of_lt hfits
  | load | add | sub | store | print | pix | pixr =>
    rw [exec_pc_of_sequential rfl (by simp [Instr.op]) h]
    exact hfits

theorem step_inv {s t : State} (hs : s.Inv) (h : step s = .next t) : t.Inv := by
  obtain ⟨i, hi, hexec⟩ := step_eq_next_instrAtPc.1 h
  obtain ⟨e, he, ht, -⟩ := exec_effect hexec
  obtain ⟨hwf, -⟩ := hs
  exact ⟨ht ▸ he.apply_mem_wf hwf, hi.exec_pc_le hexec⟩

/-- Settles O28: memory by the effect of the instruction at the program counter, the program counter by its length. -/
theorem stepKeepsTheInvariant : Obligations.StepKeepsTheInvariant := fun _ _ => step_inv

/-- Settles O27: no cell is listed and the program counter is 0. -/
theorem powerOnMeetsTheInvariant : Obligations.PowerOnMeetsTheInvariant := ⟨Memory.wf_nil, Nat.zero_le _⟩

theorem dispatch_inv {s : State} (hs : s.Inv) : (dispatch s).1.Inv := by
  cases h : step s with
  | next t =>
    rw [dispatch_of_next h]
    exact step_inv hs h
  | fault f => rwa [dispatch_of_fault h]
  | refused q => exact absurd h (step_ne_refused s q)

/-- R127: a Load in range writes its cell. -/
theorem serve_load_of_lt {a : Nat} (h : a < Config.memSize) (v : Byte) (s : State) :
    serve (.load a v) s = ({ s with mem := s.mem.write a v }, .nothing) := by
  rw [serve, memWrite_of_lt h]

/-- R127: a Load out of range is a fault that changes nothing. -/
theorem serve_load_of_ge {a : Nat} (h : Config.memSize ≤ a) (v : Byte) (s : State) :
    serve (.load a v) s = (s, .fault (.addressing .memAddress a)) := by
  rw [serve, memWrite_of_ge h]

/-- R121, R124 to R128: the state a transaction leaves, said once for the host's moves. -/
theorem serve_fst_cases (tr : Transaction) (s : State) :
    (tr ≠ .run ∧ (serve tr s).1 = s) ∨
    (∃ a v, tr = .load a v ∧ a < Config.memSize ∧ (serve tr s).1 = { s with mem := s.mem.write a v }) ∨
    (tr = .reset ∧ (serve tr s).1 = s.resetCore) ∨
    (tr = .run ∧ (serve tr s).1 = s.startRun) ∨
    (tr = .step ∧ (serve tr s).1 = (dispatch s).1) := by
  cases tr with
  | load a v =>
    obtain hlt | hge := Nat.lt_or_ge a Config.memSize
    · exact .inr (.inl ⟨a, v, rfl, hlt, by rw [serve_load_of_lt hlt]⟩)
    · exact .inl ⟨nofun, by rw [serve_load_of_ge hge]⟩
  | reset => exact .inr (.inr (.inl ⟨rfl, rfl⟩))
  | run => exact .inr (.inr (.inr (.inl ⟨rfl, rfl⟩)))
  | step => exact .inr (.inr (.inr (.inr ⟨rfl, rfl⟩)))
  | inspectMem a | inspectReg j =>
    refine .inl ⟨nofun, ?_⟩
    rw [serve]
    split <;> rfl
  | inspectPc => exact .inl ⟨nofun, rfl⟩

theorem serve_inv {s : State} (hs : s.Inv) (tr : Transaction) : (serve tr s).1.Inv := by
  have ⟨hwf, hpc⟩ := hs
  obtain ⟨-, h⟩ | ⟨a, v, -, hlt, h⟩ | ⟨-, h⟩ | ⟨-, h⟩ | ⟨-, h⟩ := serve_fst_cases tr s <;> rw [h]
  · exact hs
  · exact ⟨Memory.wf_write hwf hlt v, hpc⟩
  · exact ⟨hwf, Nat.zero_le _⟩
  · exact ⟨hwf, Nat.zero_le _⟩
  · exact dispatch_inv hs

theorem runTick_inv {s : State} (hs : s.Inv) : (runTick s).1.Inv := by
  rw [State.Inv, runTick_mem, runTick_pc]
  exact dispatch_inv hs

/-- Settles O29: a transaction by what serves it, a turn of Run by its dispatch. -/
theorem hostAndRunMovesKeepTheInvariant : Obligations.HostAndRunMovesKeepTheInvariant := by
  refine ⟨fun tr s t r hs h => ?_, fun s t r hs h => ?_⟩
  · obtain ⟨-, hserve⟩ := transact_eq_some.1 h
    obtain rfl : (serve tr s).1 = t := congrArg Prod.fst hserve
    exact serve_inv hs tr
  · obtain ⟨-, htick⟩ := engineMove_eq_some.1 h
    obtain rfl : (runTick s).1 = t := congrArg Prod.fst htick
    exact runTick_inv hs

end Sys2Proof.Machine

/-! PROOFS of the statements about what the whole machine promises of its instructions: their regions of memory, what
changes a register or the diagnostic stream, and what makes no difference to a step (spec/10_state.md,
spec/20_memory.md, spec/42_diagnostic.md, spec/50_execution_drivers.md). -/

namespace Sys2Proof.Machine

/-! ### What an instruction reaches -/

/-- Settles O31: each of the writers of a cell has its own region. -/
theorem instructionsReachOnlyTheirRegion : Obligations.InstructionsReachOnlyTheirRegion := by
  intro s t i a hi hstep hne
  rw [step_of_instrAtPc hi] at hstep
  obtain ⟨rs, addr8, rfl, rfl⟩ | ⟨x8, y8, color8, rfl, hx, hy, rfl⟩ | ⟨rx, ry, rc, hrx, hry, rfl, hx, hy, rfl⟩ :=
    exec_changes_cell hstep hne
  · exact .inl ⟨addr8.isLt, rfl⟩
  · exact .inr ⟨le_fbAddress _ _, fbAddress_lt hx hy, .inl rfl⟩
  · exact .inr ⟨le_fbAddress _ _, fbAddress_lt hx hy, .inr rfl⟩

theorem regWritten_op {i : Instr} {rd : Byte} (h : i.regWritten = some rd) :
    i.op = .load ∨ i.op = .add ∨ i.op = .sub := by
  cases i with
  | load => exact .inl rfl
  | add => exact .inr (.inl rfl)
  | sub => exact .inr (.inr rfl)
  | store | print | jz | jmp | pix | pixr | halt => cases h

/-- R13: a register that an instruction changes is its destination. -/
theorem exec_changes_register {i : Instr} {s t : State} {j : Fin Config.nregs} (h : exec i s = .next t)
    (hne : t.getX j ≠ s.getX j) : ∃ rd, i.regWritten = some rd ∧ j.val = rd.toNat := by
  obtain ⟨e, he, rfl, -⟩ := exec_effect h
  by_contra hnone
  exact hne (he.apply_getX_of_not_written (fun rd hrd hj => hnone ⟨rd, hrd, hj.symm⟩) s)

/-- R24: of the transactions only Reset and Run, which zero it, and Step change a register. -/
theorem serve_changes_register {tr : Transaction} {s : State} {j : Fin Config.nregs}
    (hne : (serve tr s).1.getX j ≠ s.getX j) :
    ((tr = .reset ∨ tr = .run) ∧ (serve tr s).1.getX j = 0) ∨ tr = .step := by
  obtain ⟨-, h⟩ | ⟨a, v, -, -, h⟩ | ⟨htr, h⟩ | ⟨htr, h⟩ | ⟨htr, -⟩ := serve_fst_cases tr s
  · exact absurd (by rw [h]) hne
  · exact absurd (by rw [h]; rfl) hne
  · exact .inl ⟨.inl htr, by rw [h, State.getX_resetCore]⟩
  · exact .inl ⟨.inr htr, by rw [h, State.getX_startRun]⟩
  · exact .inr htr

theorem runTick_x (s : State) : (runTick s).1.x = (dispatch s).1.x := by
  rw [runTick_fst]
  split
  · rfl
  · exact State.endRun_x _

/-- Settles O32: the step by the instruction it executes, the host by its transaction, a turn of Run by its dispatch. -/
theorem onlyTheListedWritersChangeRegisters : Obligations.OnlyTheListedWritersChangeRegisters := by
  refine ⟨fun s t j hstep hne => ?_, fun s f hf => ?_, fun s t h => ?_, fun tr s t r j h hne => ?_, fun s t r h => ?_⟩
  · obtain ⟨i, hi, hexec⟩ := step_eq_next_instrAtPc.1 hstep
    obtain ⟨rd, hrd, hj⟩ := exec_changes_register hexec hne
    exact ⟨i, rd, hi, regWritten_op hrd, hrd, hj⟩
  · rw [dispatch_fst_of_fault hf]
  · rw [dispatch_of_next h]
  · obtain ⟨-, hserve⟩ := transact_eq_some.1 h
    obtain rfl : (serve tr s).1 = t := congrArg Prod.fst hserve
    exact (serve_changes_register hne).imp_right fun htr => ⟨htr, htr ▸ rfl⟩
  · obtain ⟨-, htick⟩ := engineMove_eq_some.1 h
    simpa [htick] using runTick_x s

/-- R90: an instruction leaves the diagnostic stream as it was, or is a PRINT and appends its register's value. -/
theorem exec_out {i : Instr} {s t : State} (h : exec i s = .next t) : t.out = s.out ∨
    ∃ (rs : Byte) (hrs : rs.toNat < 8), i = .print rs ∧ t.out = s.out ++ [s.getX ⟨rs.toNat, hrs⟩] := by
  by_cases hop : i.op = .print
  · cases i <;> cases hop
    obtain ⟨⟨_, hrs⟩, rfl, rfl⟩ := exec_print_eq_next.1 h
    exact .inr ⟨_, hrs, rfl, rfl⟩
  · obtain ⟨e, he, rfl, -⟩ := exec_effect h
    exact .inl (by rw [Effect.apply_out, he.emitted hop, Option.toList_none, List.append_nil])

theorem serve_out {tr : Transaction} (hne : tr ≠ .step) (s : State) : (serve tr s).1.out = s.out := by
  obtain ⟨-, h⟩ | ⟨a, v, -, -, h⟩ | ⟨-, h⟩ | ⟨-, h⟩ | ⟨htr, -⟩ := serve_fst_cases tr s
  · rw [h]
  · rw [h]
  · rw [h, State.resetCore_out]
  · rw [h, State.startRun_out]
  · exact absurd htr hne

/-- Settles O34: the step by the instruction it executes, the host by its transaction. -/
theorem onlyPrintEmits : Obligations.OnlyPrintEmits := by
  refine ⟨fun s t hstep => ?_, fun tr s t r htr h => ?_, fun s f hf => ?_⟩
  · obtain ⟨i, hi, hexec⟩ := step_eq_next_instrAtPc.1 hstep
    obtain hout | ⟨rs, hrs, rfl, hout⟩ := exec_out hexec
    · exact .inl hout
    · exact .inr ⟨rs, hrs, hi, hout⟩
  · obtain ⟨-, hserve⟩ := transact_eq_some.1 h
    obtain rfl : (serve tr s).1 = t := congrArg Prod.fst hserve
    exact serve_out htr s
  · rw [dispatch_fst_of_fault hf]

/-! ### What makes no difference to a step -/

/-- Settles O35: with only an unread register changed the instruction reads the same and carries out the same effect. -/
theorem unreadRegistersMakeNoDifference : Obligations.UnreadRegistersMakeNoDifference := by
  intro i s j v hunread
  refine ⟨fun t h => ?_, fun f h => exec_fault_congr h⟩
  obtain ⟨e, he, rfl, hsame⟩ := exec_effect h
  have hreads : SameReads i s (s.setX j v) := by
    refine ⟨rfl, fun b hb r hr => State.getX_setX_ne s (fun hrj => hunread b hb ?_) v⟩
    rw [← hr, hrj]
  refine ⟨e.apply (s.setX j v), hsame _ hreads, rfl, rfl, rfl, rfl, fun k hk => ?_, fun rd hrd hj => ?_⟩
  · exact Effect.apply_getX_congr (State.getX_setX_ne s hk v) e
  · exact he.apply_getX_dest hrd hj s _

/-- The fetch looks at the cells from the program counter on that lie in the array, and at no more than four. -/
theorem fetchInstr_congr_reads {s u : State} (hpc : u.pc = s.pc)
    (h : ∀ k, k < 4 → s.pc + k < 2048 → u.mem.read (s.pc + k) = s.mem.read (s.pc + k)) :
    fetchInstr u = fetchInstr s := by
  have hwindow : fetchWindow u = fetchWindow s := by
    simp only [fetchWindow, hpc]
    refine List.map_congr_left fun k hk => ?_
    have hlt : k < min 4 (2048 - s.pc) := List.mem_range.1 hk
    exact h k (by omega) (by omega)
  simp only [fetchInstr, hwindow, hpc]

/-- Settles O36: the two states fetch the same instruction, and its effect does not depend on memory. -/
theorem memoryIsReadOnlyAsInstructionBytes : Obligations.MemoryIsReadOnlyAsInstructionBytes := by
  intro s u hpc hx hout hcontrol hcells
  have hfetch := fetchInstr_congr_reads hpc hcells
  refine ⟨fun f h => step_fault_congr hfetch h, fun t h => ?_⟩
  obtain ⟨i, e, -, -, rfl, hsame⟩ := step_effect h
  refine ⟨e.apply u, hsame u hfetch hpc hx, rfl, Effect.apply_x_congr hx e, ?_, ?_,
    fun a ha => Effect.apply_read_congr ha e⟩
  · rw [Effect.apply_out, Effect.apply_out, hout]
  · rw [Effect.apply_control, Effect.apply_control, hcontrol]

/-- Settles O37: both states fetch the same instruction, and its effect depends on neither stream nor control state. -/
theorem streamAndControlStateAreUnobserved : Obligations.StreamAndControlStateAreUnobserved := by
  intro s o c
  have hfetch : fetchInstr { s with out := o, control := c } = fetchInstr s := fetchInstr_congr rfl rfl
  refine ⟨fun f h => step_fault_congr hfetch h, fun t h => ?_⟩
  obtain ⟨i, e, -, -, rfl, hsame⟩ := step_effect h
  refine ⟨e.apply { s with out := o, control := c }, hsame _ hfetch rfl rfl, rfl, rfl, rfl,
    ⟨e.emitted.toList, Effect.apply_out e _, Effect.apply_out e _⟩, ?_⟩
  cases hend : e.endsRun with
  | true => exact .inr (by simp [hend])
  | false => exact .inl (by simp [hend])

end Sys2Proof.Machine

/-! PROOFS of the statements about each instruction: it completes with its effect and changes nothing else
(spec/40_data_movement.md to spec/44_framebuffer.md). -/

namespace Sys2Proof.Machine

/-! ### Frames and values -/

theorem zextByte_toNat (b : Byte) : (zextByte b).toNat = b.toNat :=
  BitVec.toNat_setWidth_of_le (by decide)

theorem lowByte_toNat (w : Word) : (lowByte w).toNat = w.toNat % 256 := BitVec.toNat_setWidth _ _

theorem sameRegsBut_setX (s : State) {d : Fin Config.nregs} {rd : Byte} (hd : d.val = rd.toNat) (v : Word) :
    SameRegsBut rd s (s.setX d v) :=
  fun _ hj => State.getX_setX_ne s (fun hjd => hj ((congrArg Fin.val hjd).trans hd)) v

theorem sameMemBut_write (s : State) (a : Nat) (v : Byte) : SameMemBut a s { s with mem := s.mem.write a v } :=
  fun b hb => by rw [Memory.read_write, if_neg hb]

theorem Memory.read_write_same (m : Memory) (a : Nat) (v : Byte) : (m.write a v).read a = v := by
  rw [Memory.read_write, if_pos rfl]

/-! ### LOAD, ADD and SUB -/

/-- Settles O10: the destination reads back the immediate, widened without a sign. -/
theorem loadReplacesTheWholeRegister : Obligations.LoadReplacesTheWholeRegister := by
  intro rd imm8 s hd
  refine ⟨_, exec_load_eq_next.2 ⟨⟨rd.toNat, hd⟩, rfl, rfl⟩, ?_, rfl, sameRegsBut_setX s rfl _, fun _ => rfl, rfl, rfl⟩
  rw [State.getX_advance, State.getX_setX_same, zextByte_toNat]

/-- Settles O11: the sum of two bit vectors is the sum modulo `2^XLEN`. -/
theorem addIsModuloTheRegisterWidth : Obligations.AddIsModuloTheRegisterWidth := by
  intro rd rs1 rs2 s hd h1 h2
  refine ⟨_, exec_add_eq_next.2 ⟨⟨rd.toNat, hd⟩, rfl, ⟨rs1.toNat, h1⟩, rfl, ⟨rs2.toNat, h2⟩, rfl, rfl⟩, ?_, rfl,
    sameRegsBut_setX s rfl _, fun _ => rfl, rfl, rfl⟩
  rw [State.getX_advance, State.getX_setX_same, BitVec.toNat_add]

/-- R81: a difference modulo `2^XLEN` is the exact one, or the exact one plus `2^XLEN` where that is negative. -/
theorem Word.toNat_sub_eq_ite (a b : Word) : (a - b).toNat =
    if b.toNat ≤ a.toNat then a.toNat - b.toNat else a.toNat + 2 ^ Config.xlen - b.toNat := by
  split
  · next hle => exact BitVec.toNat_sub_of_le hle
  · next hlt => rw [BitVec.toNat_sub_of_lt (Nat.lt_of_not_le hlt)]; omega

/-- Settles O12, by the two cases of a difference modulo `2^XLEN`. -/
theorem subWrapsOnUnderflow : Obligations.SubWrapsOnUnderflow := by
  intro rd rs1 rs2 s hd h1 h2
  refine ⟨_, exec_sub_eq_next.2 ⟨⟨rd.toNat, hd⟩, rfl, ⟨rs1.toNat, h1⟩, rfl, ⟨rs2.toNat, h2⟩, rfl, rfl⟩, ?_, rfl,
    sameRegsBut_setX s rfl _, fun _ => rfl, rfl, rfl⟩
  rw [State.getX_advance, State.getX_setX_same, Word.toNat_sub_eq_ite]

/-- Settles O39: ADD leaves `b` as it was, and SUB takes it from the sum again. -/
theorem subUndoesAdd : Obligations.SubUndoesAdd := by
  intro d a b s hd ha hb _ hdb _
  refine ⟨_, _, exec_add_eq_next.2 ⟨⟨d.toNat, hd⟩, rfl, ⟨a.toNat, ha⟩, rfl, ⟨b.toNat, hb⟩, rfl, rfl⟩,
    exec_sub_eq_next.2 ⟨⟨d.toNat, hd⟩, rfl, ⟨d.toNat, hd⟩, rfl, ⟨b.toNat, hb⟩, rfl, rfl⟩, ?_, rfl⟩
  have hne : (⟨b.toNat, hb⟩ : Fin Config.nregs) ≠ ⟨d.toNat, hd⟩ :=
    fun h => hdb (BitVec.eq_of_toNat_eq (Fin.ext_iff.1 h).symm)
  rw [State.getX_advance, State.getX_setX_same, State.getX_advance, State.getX_setX_same, State.getX_advance,
    State.getX_setX_ne s hne, BitVec.add_sub_cancel]

/-! ### STORE, PRINT, JZ, JMP and HALT -/

/-- Settles O13: the cell written reads back the low byte of the register. -/
theorem storeWritesTheLowByteToOneCell : Obligations.StoreWritesTheLowByteToOneCell := by
  intro rs addr8 s hs
  refine ⟨_, exec_store_eq_next.2 ⟨⟨rs.toNat, hs⟩, rfl, rfl⟩, ?_, rfl, sameMemBut_write s _ _, fun _ => rfl, rfl, rfl⟩
  rw [State.advance_mem, Memory.read_write_same, lowByte_toNat]

/-- Every place of the window that lies in the array holds the cell there. -/
theorem fetchWindow_getElem? (s : State) {k : Nat} (hk : k < 4) (hlt : s.pc + k < 2048) :
    (fetchWindow s)[k]? = some (s.mem.read (s.pc + k)) := by
  have hlen : k < (fetchWindow s).length := by
    rw [fetchWindow_length]
    exact Nat.lt_min.2 ⟨hk, Nat.lt_sub_iff_add_lt'.2 hlt⟩
  rw [List.getElem?_eq_getElem hlen, fetchWindow_getElem]

/-- Settles O38: the window reads the cell that STORE wrote. -/
theorem storedBytesAreWhatIsFetched : Obligations.StoredBytesAreWhatIsFetched := by
  intro rs addr8 s hs
  refine ⟨_, exec_store_eq_next.2 ⟨⟨rs.toNat, hs⟩, rfl, rfl⟩, fun p k hk hpk => ?_⟩
  have hlt : p + k < 2048 := hpk ▸ byte_lt_memSize addr8
  rw [fetchWindow_getElem? _ hk hlt, hpk, State.advance_mem, Memory.read_write_same]
  rfl

/-- Settles O14, by the one state that PRINT answers. -/
theorem printEmitsTheWholeRegister : Obligations.PrintEmitsTheWholeRegister := fun rs _ hs =>
  ⟨_, exec_print_eq_next.2 ⟨⟨rs.toNat, hs⟩, rfl, rfl⟩, rfl, rfl, fun _ => rfl, fun _ => rfl, rfl⟩

/-- Settles O15: the taken jump and the one not taken differ in the program counter alone. -/
theorem jzTestsTheWholeRegister : Obligations.JzTestsTheWholeRegister := by
  intro rs addr8 s hs
  obtain ⟨t, ht⟩ := (exec_completes_iff (.jz rs addr8) s).2 (by simpa [Instr.regOperands] using hs)
  have hpc := exec_jz_pc hs ht
  refine ⟨t, ht, fun hz => hpc.trans (if_pos hz), fun hz => hpc.trans (if_neg hz), ?_⟩
  obtain ⟨r, -, rfl⟩ := exec_jz_eq_next.1 ht
  split <;> exact ⟨fun _ => rfl, fun _ => rfl, rfl, rfl⟩

/-- Settles O16, by the one state that JMP answers. -/
theorem jmpReplacesTheProgramCounter : Obligations.JmpReplacesTheProgramCounter := fun _ _ =>
  ⟨_, exec_jmp_eq_next.2 rfl, rfl, fun _ => rfl, fun _ => rfl, rfl, rfl⟩

/-- Settles O19: HALT answers the state with its Run ended. -/
theorem haltWritesNothing : Obligations.HaltWritesNothing := fun s =>
  ⟨s.endRun, exec_halt_eq_next.2 rfl, rfl, fun _ => rfl, fun _ => rfl, rfl, rfl, State.endRun_of_idle⟩

/-! ### PIX and PIXR -/

/-- R107: what plotting does to memory: a pixel on the screen sets exactly its cell, one off it sets none. -/
theorem plot_sets_cell (xv yv : Nat) (c : Byte) (s : State) : ∃ m, plot xv yv c s = .ok { s with mem := m } ∧
    (xv < 32 ∧ yv < 32 → m.read (fbAddress xv yv) = c ∧ ∀ b, b ≠ fbAddress xv yv → m.read b = s.mem.read b) ∧
    (32 ≤ xv ∨ 32 ≤ yv → m = s.mem) := by
  by_cases h : xv < 32 ∧ yv < 32
  · refine ⟨_, plot_on_screen h.1 h.2 c s, fun _ => ⟨Memory.read_write_same _ _ _, sameMemBut_write s _ c⟩, ?_⟩
    omega
  · exact ⟨s.mem, plot_off_screen h c s, fun hon => absurd hon h, fun _ => rfl⟩

/-- Settles O17, by what plotting does to memory. -/
theorem pixSetsExactlyOneOnScreenCell : Obligations.PixSetsExactlyOneOnScreenCell := by
  intro x8 y8 color8 s
  obtain ⟨m, hplot, hon, hoff⟩ := plot_sets_cell x8.toNat y8.toNat color8 s
  exact ⟨_, exec_pix_eq_next.2 ⟨_, hplot, rfl⟩, hon, fun h a => congrArg (Memory.read · a) (hoff h), rfl,
    fun _ => rfl, rfl, rfl⟩

/-- Settles O18, by what plotting does to memory. -/
theorem pixrComparesWholeRegisters : Obligations.PixrComparesWholeRegisters := by
  intro rx ry rc s hx hy hc
  obtain ⟨m, hplot, hon, hoff⟩ := plot_sets_cell (s.getX ⟨rx.toNat, hx⟩).toNat (s.getX ⟨ry.toNat, hy⟩).toNat
    (lowByte (s.getX ⟨rc.toNat, hc⟩)) s
  refine ⟨_, exec_pixr_eq_next.2 ⟨_, rfl, _, rfl, _, rfl, _, hplot, rfl⟩, fun h => ?_,
    fun h a => congrArg (Memory.read · a) (hoff h), rfl, fun _ => rfl, rfl, rfl⟩
  obtain ⟨hcell, hframe⟩ := hon h
  exact ⟨(congrArg BitVec.toNat hcell).trans (lowByte_toNat _), hframe⟩

end Sys2Proof.Machine

/-! PROOFS of the statements about the drivers: what the dispatch answers, the classes of a state, Run and its end, the
host's transactions and the control state (spec/50_execution_drivers.md, spec/70_reset_and_hazards.md). -/

namespace Sys2Proof.Machine

/-! ### What the dispatch answers -/

/-- R97: a HALT stands at the program counter exactly where the cell there is in the array and holds 255. -/
theorem instrAtPc_halt {s : State} : InstrAtPc .halt s ↔ s.pc < 2048 ∧ s.mem.read s.pc = 0xFF := by
  simp [InstrAtPc, encode, Instr.op, Op.toByte, Instr.operands]

theorem atHalt_eq_true {s : State} : s.atHalt = true ↔ InstrAtPc .halt s := by
  rw [← fetchInstr_eq_ok_iff_instrAtPc, State.atHalt]
  cases fetchInstr s <;> simp

theorem dispatch_of_halt {s : State} (h : InstrAtPc .halt s) : dispatch s = (s.endRun, .halted) := by
  rw [dispatch_of_next ((step_of_instrAtPc h).trans (exec_halt_eq_next.2 rfl)), if_pos (atHalt_eq_true.2 h)]

/-- An instruction other than HALT that completes is answered by `Ok` (R153). -/
theorem dispatch_of_instr {i : Instr} {s t : State} (hi : InstrAtPc i s) (hne : i ≠ .halt) (h : exec i s = .next t) :
    dispatch s = (t, .ok) := by
  have hno : ¬s.atHalt = true := fun hhalt => hne (Except.ok.inj
    ((fetchInstr_of_instrAtPc hi).symm.trans (fetchInstr_of_instrAtPc (atHalt_eq_true.1 hhalt))))
  rw [dispatch_of_next ((step_of_instrAtPc hi).trans h), if_neg hno]

/-- R122, R153: the three answers of a dispatch, each with its cause. -/
theorem dispatch_cases (s : State) :
    (∃ i t, InstrAtPc i s ∧ i ≠ .halt ∧ exec i s = .next t ∧ dispatch s = (t, .ok)) ∨
    (InstrAtPc .halt s ∧ dispatch s = (s.endRun, .halted)) ∨
    (∃ f, step s = .fault f ∧ dispatch s = (s, .fault f)) := by
  cases h : step s with
  | next t =>
    obtain ⟨i, hi, hexec⟩ := step_eq_next_instrAtPc.1 h
    by_cases hne : i = .halt
    · subst hne
      exact .inr (.inl ⟨hi, dispatch_of_halt hi⟩)
    · exact .inl ⟨i, t, hi, hne, hexec, dispatch_of_instr hi hne hexec⟩
  | fault f => exact .inr (.inr ⟨f, rfl, dispatch_of_fault h⟩)
  | refused q => exact absurd h (step_ne_refused s q)

theorem dispatch_snd_eq_halted {s : State} : (dispatch s).2 = .halted ↔ InstrAtPc .halt s := by
  refine ⟨fun h => ?_, fun h => by rw [dispatch_of_halt h]⟩
  obtain ⟨i, t, -, -, -, hd⟩ | ⟨hi, -⟩ | ⟨f, -, hd⟩ := dispatch_cases s
  · rw [hd] at h
    cases h
  · exact hi
  · rw [hd] at h
    cases h

/-- R130: an instruction other than HALT leaves the control state as it was. -/
theorem exec_control {i : Instr} {s t : State} (h : exec i s = .next t) (hne : i ≠ .halt) : t.control = s.control := by
  obtain ⟨e, he, rfl, -⟩ := exec_effect h
  simp [he.endsRun, hne]

theorem dispatch_control_of_ok {s : State} (h : (dispatch s).2 = .ok) : (dispatch s).1.control = s.control := by
  obtain ⟨i, t, -, hne, hexec, hd⟩ | ⟨-, hd⟩ | ⟨f, -, hd⟩ := dispatch_cases s
  · rw [hd]
    exact exec_control hexec hne
  · rw [hd] at h
    cases h
  · rw [hd]

/-- In Idle a dispatch that does not answer `Ok` changes nothing (R97, R156). -/
theorem dispatch_fst_of_ne_ok {s : State} (hidle : s.control = .idle) (h : (dispatch s).2 ≠ .ok) :
    (dispatch s).1 = s := by
  obtain ⟨i, t, -, -, -, hd⟩ | ⟨-, hd⟩ | ⟨f, -, hd⟩ := dispatch_cases s
  · exact absurd (congrArg Prod.snd hd) h
  · rw [hd, State.endRun_of_idle hidle]
  · rw [hd]

theorem dispatch_control_of_idle {s : State} (hidle : s.control = .idle) : (dispatch s).1.control = .idle := by
  by_cases h : (dispatch s).2 = .ok
  · rw [dispatch_control_of_ok h, hidle]
  · rw [dispatch_fst_of_ne_ok hidle h, hidle]

/-! ### The rest state of HALT -/

/-- At a HALT in Idle a transaction other than Reset, Run and a Load at the program counter keeps the program counter
and the cell there. -/
theorem serve_at_halt {s : State} (hhalt : InstrAtPc .halt s) (hidle : s.control = .idle) (tr : Transaction) :
    tr = .reset ∨ tr = .run ∨ (∃ v, tr = .load s.pc v) ∨
      ((serve tr s).1.pc = s.pc ∧ (serve tr s).1.mem.read s.pc = s.mem.read s.pc) := by
  by_cases hstep : tr = .step
  · subst hstep
    have hsame : (serve .step s).1 = s := by
      rw [serve, dispatch_of_halt hhalt, State.endRun_of_idle hidle]
    exact .inr (.inr (.inr (by rw [hsame]; exact ⟨rfl, rfl⟩)))
  · obtain hpc | ⟨hreset | hrun, -⟩ | ⟨heq, -⟩ := serve_pc tr s
    · by_cases hcell : (serve tr s).1.mem.read s.pc = s.mem.read s.pc
      · exact .inr (.inr (.inr ⟨hpc, hcell⟩))
      · exact .inr (.inr (.inl ((serve_changes_cell hcell).resolve_right hstep)))
    · exact .inl hreset
    · exact .inr (.inl hrun)
    · exact absurd heq hstep

theorem runTick_of_ok {s t : State} (h : dispatch s = (t, .ok)) : runTick s = (t, .pending) := by
  simp [runTick, h]

theorem runTick_of_ne_ok {s : State} (h : (dispatch s).2 ≠ .ok) :
    runTick s = ((dispatch s).1.endRun, .result (dispatch s).2) := by
  cases hd : dispatch s with
  | mk t r =>
    cases r with
    | ok => exact absurd (congrArg Prod.snd hd) h
    | halted | fault | refused => simp [runTick, hd]

/-- Settles O40: at a HALT the dispatch answers `Halted`, and it does so nowhere else. -/
theorem haltIsARestState : Obligations.HaltIsARestState := by
  refine ⟨fun s hpc hcell hidle => ⟨?_, fun tr t r h => ?_⟩, fun s hpc hcell hrun => ?_,
    fun s h => instrAtPc_halt.1 (dispatch_snd_eq_halted.1 h)⟩
  · rw [transact_of_idle hidle, serve, dispatch_of_halt (instrAtPc_halt.2 ⟨hpc, hcell⟩), State.endRun_of_idle hidle]
  · obtain ⟨-, hserve⟩ := transact_eq_some.1 h
    obtain rfl : (serve tr s).1 = t := congrArg Prod.fst hserve
    refine (serve_at_halt (instrAtPc_halt.2 ⟨hpc, hcell⟩) hidle tr).imp_right (Or.imp_right (Or.imp_right ?_))
    rintro ⟨hpcsame, hcellsame⟩
    exact ⟨hpcsame, by rw [hpcsame, hcellsame, hcell]⟩
  · have hd := dispatch_of_halt (instrAtPc_halt.2 ⟨hpc, hcell⟩)
    rw [engineMove_eq_some, runTick_of_ne_ok (by simp [hd]), hd]
    exact ⟨hrun, rfl⟩

/-! ### The classes of a state (R131) -/

theorem lifecycle_of_ge {s : State} (h : Config.memSize ≤ s.pc) : s.lifecycle = .faulted := if_neg (Nat.not_lt.2 h)

theorem lifecycle_of_illegal {s : State} (h : s.pc < Config.memSize) (ho : Op.ofByte (s.mem.read s.pc) = none) :
    s.lifecycle = .faulted := by
  rw [State.lifecycle, if_pos h, ho]

theorem lifecycle_of_halt {s : State} (h : s.pc < Config.memSize) (ho : Op.ofByte (s.mem.read s.pc) = some .halt) :
    s.lifecycle = .halted := by
  rw [State.lifecycle, if_pos h, ho]

theorem lifecycle_of_op {s : State} {o : Op} (h : s.pc < Config.memSize) (ho : Op.ofByte (s.mem.read s.pc) = some o)
    (hne : o ≠ .halt) : s.lifecycle =
      if s.pc + o.format.length ≤ Config.memSize
          ∧ ∀ k ∈ o.format.regOffsets, (s.mem.read (s.pc + k)).toNat < Config.nregs then .ready
      else .faulted := by
  rw [State.lifecycle, if_pos h, ho]
  cases o with
  | halt => exact absurd rfl hne
  | load | add | sub | store | print | jz | jmp | pix | pixr => rfl

theorem regOffset_lt_length {f : Format} {k : Nat} (h : k ∈ f.regOffsets) : k < f.length := by
  cases f <;> revert k <;> decide

theorem regOffsets_of_encode (i : Instr) :
    i.op.format.regOffsets.map (fun k => (encode i)[k]?) = i.regOperands.map some := by
  cases i <;> rfl

/-- R51, R53: the register operands of the instruction at the program counter are the bytes at its format's offsets. -/
theorem InstrAtPc.regOperands_eq {i : Instr} {s : State} (h : InstrAtPc i s) :
    i.regOperands = i.op.format.regOffsets.map fun k => s.mem.read (s.pc + k) := by
  refine (List.map_injective_iff.2 (Option.some_injective Byte)) ?_
  rw [← regOffsets_of_encode, List.map_map]
  refine List.map_congr_left fun k hk => ?_
  have hlt : k < (encode i).length := encode_length i ▸ regOffset_lt_length hk
  rw [List.getElem?_eq_getElem hlt, h.encode_getElem hlt]
  rfl

/-- What a class says the next dispatch answers (R131). -/
def Lifecycle.Predicts : Lifecycle → Result → Prop
  | .ready, r => r = .ok
  | .halted, r => r = .halted
  | .faulted, r => ∃ f, r = .fault f

theorem Lifecycle.faulted_predicts {s : State} {f : Fault} (h : step s = .fault f) :
    Lifecycle.faulted.Predicts (dispatch s).2 := ⟨f, dispatch_snd_eq_fault.2 h⟩

theorem eq_halt_of_op {i : Instr} (h : i.op = .halt) : i = .halt := by
  cases i <;> cases h
  rfl

/-- R131: with an instruction other than HALT at the program counter the class turns on its register operands, and so
does the answer. -/
theorem InstrAtPc.lifecycle_predicts {i : Instr} {s : State} (hi : InstrAtPc i s) (hne : i ≠ .halt)
    (hlt : s.pc < Config.memSize) (ho : Op.ofByte (s.mem.read s.pc) = some i.op)
    (hfits : s.pc + i.op.format.length ≤ Config.memSize) : s.lifecycle.Predicts (dispatch s).2 := by
  have hvalid : (∀ k ∈ i.op.format.regOffsets, (s.mem.read (s.pc + k)).toNat < 8) ↔ ∃ t, exec i s = .next t := by
    rw [exec_completes_iff, hi.regOperands_eq, List.forall_mem_map]
  rw [lifecycle_of_op hlt ho fun h => hne (eq_halt_of_op h)]
  cases hexec : exec i s with
  | next t =>
    rw [if_pos ⟨hfits, hvalid.2 ⟨t, hexec⟩⟩, dispatch_of_instr hi hne hexec]
    rfl
  | fault f =>
    have hno : ¬∃ t, exec i s = .next t := by simp [hexec]
    rw [if_neg fun h => hno (hvalid.1 h.2)]
    exact Lifecycle.faulted_predicts ((step_of_instrAtPc hi).trans hexec)
  | refused q => exact absurd hexec (exec_ne_refused i s q)

/-- R131: the class of a state predicts the answer of its dispatch, by what its fetch answers. -/
theorem lifecycle_predicts (s : State) : s.lifecycle.Predicts (dispatch s).2 := by
  obtain ⟨hge, hf⟩ | ⟨hlt, hnone, hf⟩ | ⟨hlt, o, ho, ⟨hcut, hf⟩ | ⟨hfits, i, rfl, hi⟩⟩ := fetchInstr_cases s
  · rw [lifecycle_of_ge hge]
    exact Lifecycle.faulted_predicts (step_of_fault hf)
  · rw [lifecycle_of_illegal hlt hnone]
    exact Lifecycle.faulted_predicts (step_of_fault hf)
  · have hne : o ≠ .halt := by
      rintro rfl
      exact absurd hlt (Nat.not_lt.2 (Nat.le_of_lt_succ hcut))
    rw [lifecycle_of_op hlt ho hne, if_neg fun h => absurd h.1 (Nat.not_le.2 hcut)]
    exact Lifecycle.faulted_predicts (step_of_fault hf)
  · by_cases hhalt : i = .halt
    · subst hhalt
      rw [lifecycle_of_halt hlt ho, dispatch_of_halt hi]
      rfl
    · exact hi.lifecycle_predicts hhalt hlt ho hfits

/-- Settles O41: the class predicts the answer, and the three answers exclude each other. -/
theorem lifecyclePredictsTheDispatch : Obligations.LifecyclePredictsTheDispatch := by
  intro s
  have h := lifecycle_predicts s
  cases hs : s.lifecycle with
  | ready =>
    have hd : (dispatch s).2 = .ok := by rwa [hs] at h
    simp [hd]
  | halted =>
    have hd : (dispatch s).2 = .halted := by rwa [hs] at h
    simp [hd]
  | faulted =>
    obtain ⟨f, hd⟩ : ∃ f, (dispatch s).2 = .fault f := by rwa [hs] at h
    simp [hd]

/-- Settles O42: a state of these classes is a fixed point of the dispatch. -/
theorem stepsNeverLeaveHaltedOrFaulted : Obligations.StepsNeverLeaveHaltedOrFaulted := by
  intro s n hidle hclass
  obtain ⟨hready, -⟩ := lifecyclePredictsTheDispatch s
  exact Function.iterate_fixed (dispatch_fst_of_ne_ok hidle (mt hready.2 hclass)) n

/-! ### Run (R125, R132 to R134) -/

theorem runFor_succ_of_ok {s t : State} (h : dispatch s = (t, .ok)) (n : Nat) : runFor (n + 1) s = runFor n t := by
  rw [runFor, runTick_of_ok h]

theorem runFor_succ_of_ne_ok {s : State} (h : (dispatch s).2 ≠ .ok) (n : Nat) :
    runFor (n + 1) s = ((dispatch s).1.endRun, .result (dispatch s).2) := by
  rw [runFor, runTick_of_ne_ok h]

/-- Settles O45, by induction on the number of turns. -/
theorem anUnchangingLoopNeverEndsARun : Obligations.AnUnchangingLoopNeverEndsARun := by
  intro n s h
  induction n with
  | zero => rfl
  | succ n ih => rw [runFor_succ_of_ok h, ih]

/-- R130, R164: the control state has no part in the answer of a dispatch, nor in the state after it but for itself:
after `Ok` it is kept. -/
theorem dispatch_with_control (s : State) (c : Control) :
    (dispatch { s with control := c }).2 = (dispatch s).2 ∧
    (dispatch { s with control := c }).1.endRun = (dispatch s).1.endRun ∧
    ((dispatch s).2 = .ok → (dispatch { s with control := c }).1 = { (dispatch s).1 with control := c }) := by
  obtain ⟨i, t, hi, hne, hexec, hd⟩ | ⟨hi, hd⟩ | ⟨f, hf, hd⟩ := dispatch_cases s
  · obtain ⟨e, he, rfl, hsame⟩ := exec_effect hexec
    have hkept : e.apply { s with control := c } = { e.apply s with control := c } := by
      simp [Effect.apply, he.endsRun, hne]
    have hexec' : exec i { s with control := c } = .next { e.apply s with control := c } :=
      hkept ▸ hsame _ ⟨rfl, fun _ _ _ _ => rfl⟩
    rw [hd, dispatch_of_instr (s := { s with control := c }) hi hne hexec']
    exact ⟨rfl, rfl, fun _ => rfl⟩
  · have hd' : dispatch { s with control := c } = (s.endRun, .halted) := dispatch_of_halt hi
    rw [hd, hd']
    exact ⟨rfl, rfl, nofun⟩
  · have hd' : dispatch { s with control := c } = ({ s with control := c }, .fault f) :=
      dispatch_of_fault (step_fault_congr (fetchInstr_congr (s := s) rfl rfl) hf)
    rw [hd, hd']
    exact ⟨rfl, rfl, nofun⟩

/-- R132: turns of Run's loop in Running do what as many Steps do, and the Run is pending while they answer `Ok`. -/
theorem runFor_eq_stepMany (n : Nat) (s : State) : runFor n { s with control := .running } =
    if (stepMany n s).2 = .ok then ({ (stepMany n s).1 with control := .running }, .pending)
    else ((stepMany n s).1.endRun, .result (stepMany n s).2) := by
  induction n generalizing s with
  | zero => rfl
  | succ n ih =>
    obtain ⟨hresult, hended, hkept⟩ := dispatch_with_control s .running
    by_cases hok : (dispatch s).2 = .ok
    · rw [stepMany_succ_of_ok (Prod.ext rfl hok), runFor_succ_of_ok (Prod.ext (hkept hok) (hresult.trans hok)), ih]
    · rw [stepMany_succ_of_ne_ok hok, runFor_succ_of_ne_ok (hresult ▸ hok), hresult, hended, if_neg hok]

/-- Settles O43: the opening of a Run is a Reset with the control state made Running, and its turns are Steps. -/
theorem runIsResetThenSteps : Obligations.RunIsResetThenSteps := by
  intro n s _
  rw [State.startRun_eq_resetCore, runFor_eq_stepMany]
  split <;> exact ⟨rfl, rfl, rfl, rfl, rfl, rfl⟩

/-- R134: where a dispatch ends a Run, the state left is Idle, answers the same again, and stands on the HALT or on the
instruction that faulted. -/
theorem dispatch_endRun_of_ne_ok {s : State} (h : (dispatch s).2 ≠ .ok) :
    dispatch (dispatch s).1.endRun = ((dispatch s).1.endRun, (dispatch s).2) ∧
    (((dispatch s).2 = .halted ∧ InstrAtPc .halt (dispatch s).1.endRun) ∨
      ∃ f, (dispatch s).2 = .fault f ∧ step (dispatch s).1.endRun = .fault f) := by
  obtain ⟨i, t, -, -, -, hd⟩ | ⟨hi, hd⟩ | ⟨f, hf, hd⟩ := dispatch_cases s
  · exact absurd (congrArg Prod.snd hd) h
  · rw [hd]
    exact ⟨dispatch_of_halt (s := s.endRun) hi, .inl ⟨rfl, hi⟩⟩
  · have hfault : step s.endRun = .fault f := step_fault_congr (fetchInstr_congr (s := s) rfl rfl) hf
    rw [hd]
    exact ⟨dispatch_of_fault hfault, .inr ⟨f, rfl, hfault⟩⟩

/-- Settles O44, by induction on the number of turns: the last of them is the one whose dispatch did not answer `Ok`. -/
theorem endedRunsStandOnAHaltOrAFault : Obligations.EndedRunsStandOnAHaltOrAFault := by
  intro n
  induction n with
  | zero => nofun
  | succ n ih =>
    intro s t r h
    by_cases hok : (dispatch s).2 = .ok
    · rw [runFor_succ_of_ok (t := (dispatch s).1) (Prod.ext rfl hok)] at h
      exact ih _ t r h
    · rw [runFor_succ_of_ne_ok hok] at h
      obtain ⟨rfl, hr⟩ := Prod.mk.inj h
      obtain rfl := Response.result.inj hr
      obtain ⟨hagain, hcause⟩ := dispatch_endRun_of_ne_ok hok
      exact ⟨rfl, hagain, hcause.imp_left fun ⟨hhalted, hi⟩ => ⟨hhalted, instrAtPc_halt.1 hi⟩⟩

/-! ### The control state and the host's transactions -/

/-- R130: in Idle only Run leads to Running. -/
theorem serve_control {s : State} (hidle : s.control = .idle) (tr : Transaction) :
    (serve tr s).1.control = .running ↔ tr = .run := by
  obtain ⟨hne, h⟩ | ⟨a, v, rfl, -, h⟩ | ⟨rfl, h⟩ | ⟨rfl, h⟩ | ⟨rfl, h⟩ := serve_fst_cases tr s <;> rw [h]
  · simp [hidle, hne]
  · simp [hidle]
  · simp [hidle]
  · simp
  · simp [dispatch_control_of_idle hidle]

/-- Settles O47: the host's moves by what serves them, the engine's by its dispatch. -/
theorem controlMachineMovesAsTabled : Obligations.ControlMachineMovesAsTabled := by
  refine ⟨fun s tr hrun => transact_of_running hrun tr, fun s tr hidle => ?_, fun s hidle => ?_, fun s hrun => ?_⟩
  · exact ⟨_, _, transact_of_idle hidle tr, serve_control hidle tr⟩
  · simp [engineMove, hidle]
  · refine ⟨(runTick s).1, (runTick s).2, engineMove_eq_some.2 ⟨hrun, rfl⟩, fun hok => ?_, fun hne => ?_⟩
    · rw [runTick_of_ok (t := (dispatch s).1) (Prod.ext rfl hok)]
      exact ⟨rfl, rfl, (dispatch_control_of_ok hok).trans hrun⟩
    · rw [runTick_of_ne_ok hne]
      exact ⟨rfl, rfl⟩

/-- R182: a Load gives the same state and response before a Reset as after it. -/
theorem serve_load_resetCore (s : State) (a : Nat) (v : Byte) :
    serve (.load a v) s.resetCore = ((serve (.load a v) s).1.resetCore, (serve (.load a v) s).2) := by
  obtain hlt | hge := Nat.lt_or_ge a Config.memSize
  · rw [serve_load_of_lt hlt, serve_load_of_lt hlt]
    rfl
  · rw [serve_load_of_ge hge, serve_load_of_ge hge]

/-- Settles O9: registers and program counter are overwritten with the same values, and a Load touches neither. -/
theorem resetIsIdempotentAndCommutesWithLoad : Obligations.ResetIsIdempotentAndCommutesWithLoad := by
  refine ⟨fun s => rfl, fun s a v => ?_, fun s a v => ?_, fun s hidle => ?_⟩
  · rw [serve_load_resetCore]
    exact ⟨rfl, rfl⟩
  · rw [serve_load_resetCore]
    rfl
  · rw [State.resetCore, hidle]
    rfl

/-- Settles O46: each transaction by the range of its address or index. -/
theorem loadAndInspectServeTheHost : Obligations.LoadAndInspectServeTheHost := by
  intro s hidle
  simp only [transact_of_idle hidle]
  refine ⟨fun a v hlt => ?_, fun a v hge => ?_, fun a hlt => ?_, fun a hge => ?_, fun i hlt => ?_, fun i hge => ?_, rfl⟩
  · refine ⟨_, congrArg some (serve_load_of_lt hlt v s), Memory.read_write_same _ _ _, sameMemBut_write s a v,
      fun _ => rfl, rfl, rfl, rfl⟩
  · rw [serve_load_of_ge hge]
  · rw [serve, memRead_of_lt hlt]
  · rw [serve, memRead_of_ge hge]
  · rw [serve, regIndex_of_lt hlt]
  · rw [serve, regIndex_of_ge hge]

end Sys2Proof.Machine
